-- ==== Sys2Proof/Word.lean ====
section
/-! DEFINITION. The word types of the framer (spec/00_scope.md rules R9 to R12, 30_encoding.md rule R79). -/

namespace Sys2Proof

/-- An 8-bit value (00_scope.md rule R12). -/
abbrev Byte := BitVec 8

/-- A 10-bit wire word: two protection bits, then a data byte (00_scope.md rule R14, 30_encoding.md rule R72). -/
abbrev WireWord := BitVec 10

/-- A command: one 32-bit word the host gives the framer (30_encoding.md rule R79). -/
abbrev CmdWord := BitVec 32

/-- A list of bits in stream order: the first element is the first bit (00_scope.md rule R9 (a)). -/
abbrev Bits := List Bool

end Sys2Proof
end

