-- ==== Sys2Proof/Syntax.lean ====
section
/-! DEFINITION. The fourteen commands of spec/opcode_table.json (30_encoding.md rules R80, R81). -/

namespace Sys2Proof

/-- A command of the framer, its operands as 30_encoding.md rule R80 names them: `n` "a natural number" and `k` "a digit
index" are naturals (WellFormed says whether they fit their field); bytes, wire words, register addresses, values and
digits are bit vectors of the field's width. -/
inductive Instr where
  /-- `CINIT n`: open a cursor over the first `n` bits of BUF (R102) -/
  | cinit (n : Nat)
  /-- `RD n`: read the next `n` bits (R103) -/
  | rd (n : Nat)
  /-- `SK n`: skip `n` bits (R104) -/
  | sk (n : Nat)
  /-- `ENCB b`: the wire word of a byte (R121) -/
  | encb (b : Byte)
  /-- `DECB w`: the byte of a wire word (R124) -/
  | decb (w : WireWord)
  /-- `ISDEL did, sdid`: the payload-kind predicate (R141) -/
  | isdel (did sdid : Byte)
  /-- `PADLEN b`: the padding length for a word count (R168) -/
  | padlen (b : Byte)
  /-- `PKDEC`: decode one packet at the cursor (R160) -/
  | pkdec
  /-- `PKENC`: encode the packet into OUT (R170) -/
  | pkenc
  /-- `RDREG r`: read a register (R182) -/
  | rdreg (r : BitVec 8)
  /-- `WRREG r, v`: write a register (R183) -/
  | wrreg (r : BitVec 8) (v : BitVec 16)
  /-- `RDU k`: read digit `k` of UVAL (R184) -/
  | rdu (k : Nat)
  /-- `WRU k, d`: write digit `k` of UVAL (R185) -/
  | wru (k : Nat) (d : BitVec 10)
  /-- `RST`: reset the framer (R186) -/
  | rst
  deriving DecidableEq, Repr

end Sys2Proof
end

