-- ==== Sys2Proof/WellFormed.lean ====
section
/-! DEFINITION. Which commands have a command word: every natural operand fits its field (spec/30_encoding.md rule R80).
An operand outside its RANGE (`RD 0`, `RDU 255`) is well-formed: rule R83 calls it a legal command that faults. -/

namespace Sys2Proof

/-- Does the operand fit its field of R80? The operands that are bit vectors always do. -/
def Instr.wf : Instr → Bool
  | .cinit n => n < 2 ^ 24
  | .rd n => n < 2 ^ 7
  | .sk n => n < 2 ^ 24
  | .encb _ => true
  | .decb _ => true
  | .isdel _ _ => true
  | .padlen _ => true
  | .pkdec => true
  | .pkenc => true
  | .rdreg _ => true
  | .wrreg _ _ => true
  | .rdu k => k < 2 ^ 8
  | .wru k _ => k < 2 ^ 8
  | .rst => true

end Sys2Proof
end

