-- ==== Sys2Proof/Decode.lean ====
section
/-! DEFINITION. The command decoder and the encoder (spec/30_encoding.md Part B, rules R79 to R83). -/

namespace Sys2Proof

/-- Why a word is no command (R82); the framer raises the same fault IllegalCommand for both. -/
inductive Reject where
  /-- opcode 0x00, or 0x0F to 0xFF: reserved -/
  | reservedOpcode (op : Byte)
  /-- a known opcode with a nonzero bit where its format has none -/
  | strayBits (op : Byte)
  deriving DecidableEq, Repr

/-- `cmd[31:24]` (R79). -/
def CmdWord.op (w : CmdWord) : Byte := w.extractLsb' 24 8

/-- `cmd[23:0]` (R79). -/
def CmdWord.arg (w : CmdWord) : BitVec 24 := w.extractLsb' 0 24

/-- A command whose format leaves the bits `stray` of the argument unnamed: they must be zero (R80, R82). -/
def ifClear {n : Nat} (op : Byte) (stray : BitVec n) (i : Instr) : Except Reject Instr :=
  if stray = 0 then .ok i else .error (.strayBits op)

/-- The command a word stands for, by opcode and format (R80, R81); any other word is rejected by name (R82). -/
def decode (w : CmdWord) : Except Reject Instr :=
  let op := CmdWord.op w
  let arg := CmdWord.arg w
  match op.toNat with
  | 0x01 => .ok (.cinit arg.toNat)
  | 0x02 => ifClear op (arg.extractLsb' 7 17) (.rd (arg.extractLsb' 0 7).toNat)
  | 0x03 => .ok (.sk arg.toNat)
  | 0x04 => ifClear op (arg.extractLsb' 8 16) (.encb (arg.extractLsb' 0 8))
  | 0x05 => ifClear op (arg.extractLsb' 10 14) (.decb (arg.extractLsb' 0 10))
  | 0x06 => ifClear op (arg.extractLsb' 16 8) (.isdel (arg.extractLsb' 8 8) (arg.extractLsb' 0 8))
  | 0x07 => ifClear op (arg.extractLsb' 8 16) (.padlen (arg.extractLsb' 0 8))
  | 0x08 => ifClear op arg .pkdec
  | 0x09 => ifClear op arg .pkenc
  | 0x0A => ifClear op (arg.extractLsb' 0 16) (.rdreg (arg.extractLsb' 16 8))
  | 0x0B => .ok (.wrreg (arg.extractLsb' 16 8) (arg.extractLsb' 0 16))
  | 0x0C => ifClear op (arg.extractLsb' 18 6 ++ arg.extractLsb' 0 10) (.rdu (arg.extractLsb' 10 8).toNat)
  | 0x0D => ifClear op (arg.extractLsb' 18 6) (.wru (arg.extractLsb' 10 8).toNat (arg.extractLsb' 0 10))
  | 0x0E => ifClear op arg .rst
  | _ => .error (.reservedOpcode op)

/-- The opcode of a command (R81). -/
def Instr.opcode : Instr → Byte
  | .cinit _ => 0x01
  | .rd _ => 0x02
  | .sk _ => 0x03
  | .encb _ => 0x04
  | .decb _ => 0x05
  | .isdel _ _ => 0x06
  | .padlen _ => 0x07
  | .pkdec => 0x08
  | .pkenc => 0x09
  | .rdreg _ => 0x0A
  | .wrreg _ _ => 0x0B
  | .rdu _ => 0x0C
  | .wru _ _ => 0x0D
  | .rst => 0x0E

/-- The argument of a command: its operands placed as R80's formats say, every other bit zero. -/
def Instr.argument : Instr → BitVec 24
  | .cinit n => BitVec.ofNat 24 n
  | .rd n => 0#17 ++ BitVec.ofNat 7 n
  | .sk n => BitVec.ofNat 24 n
  | .encb b => 0#16 ++ b
  | .decb w => 0#14 ++ w
  | .isdel did sdid => 0#8 ++ did ++ sdid
  | .padlen b => 0#16 ++ b
  | .pkdec => 0
  | .pkenc => 0
  | .rdreg r => r ++ 0#16
  | .wrreg r v => r ++ v
  | .rdu k => 0#6 ++ BitVec.ofNat 8 k ++ 0#10
  | .wru k d => 0#6 ++ BitVec.ofNat 8 k ++ d
  | .rst => 0

/-- The word of a command (R84: "op·2^24 + the fields placed as rule R80 says"); meant for well-formed commands. -/
def encode (i : Instr) : CmdWord := i.opcode ++ i.argument

/-- One row of R81's table: a word is this command exactly when `word AND mask = pattern`. -/
structure OpcodeRow where
  mnemonic : String
  pattern : CmdWord
  mask : CmdWord
  deriving DecidableEq, Repr

/-- R81's row of a command: mnemonic, match, mask, as the table prints them. -/
def Instr.row : Instr → OpcodeRow
  | .cinit _ => ⟨"CINIT", 0x01000000, 0xFF000000⟩
  | .rd _ => ⟨"RD", 0x02000000, 0xFFFFFF80⟩
  | .sk _ => ⟨"SK", 0x03000000, 0xFF000000⟩
  | .encb _ => ⟨"ENCB", 0x04000000, 0xFFFFFF00⟩
  | .decb _ => ⟨"DECB", 0x05000000, 0xFFFFFC00⟩
  | .isdel _ _ => ⟨"ISDEL", 0x06000000, 0xFFFF0000⟩
  | .padlen _ => ⟨"PADLEN", 0x07000000, 0xFFFFFF00⟩
  | .pkdec => ⟨"PKDEC", 0x08000000, 0xFFFFFFFF⟩
  | .pkenc => ⟨"PKENC", 0x09000000, 0xFFFFFFFF⟩
  | .rdreg _ => ⟨"RDREG", 0x0A000000, 0xFF00FFFF⟩
  | .wrreg _ _ => ⟨"WRREG", 0x0B000000, 0xFF000000⟩
  | .rdu _ => ⟨"RDU", 0x0C000000, 0xFFFC03FF⟩
  | .wru _ _ => ⟨"WRU", 0x0D000000, 0xFFFC0000⟩
  | .rst => ⟨"RST", 0x0E000000, 0xFFFFFFFF⟩

/-- R81's table, one row per opcode. -/
def opcodeTable : List OpcodeRow :=
  [.cinit 0, .rd 0, .sk 0, .encb 0, .decb 0, .isdel 0 0, .padlen 0, .pkdec, .pkenc, .rdreg 0, .wrreg 0 0, .rdu 0,
    .wru 0 0, .rst].map Instr.row

/-- Does a word fit a row (R81)? -/
def OpcodeRow.fits (r : OpcodeRow) (w : CmdWord) : Bool := w &&& r.mask == r.pattern

/-- The command word whose bits are `w`, numbered as spec/opcode_table.json numbers them. A command is ONE word, so no
byte order enters; bits above `nbits` are zero. -/
def tableWord (nbits w : Nat) : CmdWord := BitVec.ofNat 32 (w % 2 ^ nbits)

/-- What the decoder reads from a table row's word; none where it rejects the word. -/
def decodeTableWord (nbits w : Nat) : Option Instr := (decode (tableWord nbits w)).toOption

end Sys2Proof
end

