-- ==== Sys2Proof/Config.lean ====
section
/-! DEFINITION. What an implementation fixes (spec/00_scope.md rules R5, R6) and the free values. -/

namespace Sys2Proof

/-- A value of the open type `Inner` of 00_scope.md rule R6: the delegated payload's opaque model. The framer never
looks inside one (10_state.md rule R26), so which set stands for the values does not matter as long as it has one for
every answer a codec can give; byte lists do (DESIGN CHOICE, safe, log 4). -/
structure Inner where
  token : List Byte
  deriving DecidableEq, Repr

/-- The model's arguments of 00_scope.md rule R6 that are plain data: fixed for a whole run (70_reset_and_hazards.md
rule R251), changed by no step. They stand in State so that a statement about every state is a statement about every
value of them (DESIGN CHOICE, safe, log 3 and log 5). -/
structure Params where
  /-- `BUF_BITS`, the capacity of BUF in bits; 24 bits, so at most 2^24 − 1. That it is at least 1 (R6) is a clause of
  `State.Inv`, which State.reset meets and every step keeps. -/
  bufBits : BitVec 24
  /-- answers of `pcDecode` given to this run; elsewhere it answers as `Config.pcDecode` -/
  decodeTable : List (List Byte × Option Inner)
  /-- answers of `pcEncode` given to this run; elsewhere it answers as `Config.pcEncode` -/
  encodeTable : List (Inner × Option (List Byte))
  deriving DecidableEq, Repr

namespace Config

/-- `DELEG_DID` (R5). -/
def delegDid : Byte := 0x41
/-- `DELEG_SDID` (R5). -/
def delegSdid : Byte := 0x07
/-- `LINE_SENTINEL` (R5). -/
def lineSentinel : BitVec 11 := 0x7FF
/-- `HOFF_SENTINEL` (R5). -/
def hoffSentinel : BitVec 12 := 0xFFF
/-- `ALIGN_BITS` (R5). -/
def alignBits : Nat := 32
/-- `RD_MAX` (R5). -/
def rdMax : Nat := 64
/-- `DESC_BYTES` (R5). -/
def descBytes : Nat := 2
/-- `OUT_BITS` (R6). -/
def outBits : Nat := 5184

/-- FREE VALUE: what `pcDecode` answers (R6, 43_payloadresolver.md rule R144): any function (log 5). -/
opaque pcDecode : List Byte → Option Inner

/-- FREE VALUE: what `pcEncode` answers (R6, R144): any function (log 5). -/
opaque pcEncode : Inner → Option (List Byte)

/-- FREE VALUE: the bit at an address of BUF that the host has not written since the given number of hardware resets
(10_state.md rule R39, "model as an arbitrary bit list"; log 6). -/
opaque powerOnBit : Nat → Nat → Bool

/-- The parameters State.reset is written with: BUF_BITS as the vectors of 95_test_vectors.md have it, no answer of the
PayloadCodec given (DESIGN CHOICE, log 3 and log 5). -/
def resetParams : Params := { bufBits := 4096, decodeTable := [], encodeTable := [] }

end Config

end Sys2Proof
end

