-- ==== Sys2Proof/Machine/State.lean ====
section
/-! DEFINITION. The state of the framer (spec/10_state.md rule R20), what the host can do (20_memory.md rule R60), the
ways a step can stop, and the state after reset (rule R39). -/

namespace Sys2Proof.Machine

/-- A memory of one-bit cells (20_memory.md rules R50, R57): the cells that hold a value, by bit address, addresses strictly
rising. An unlisted cell holds no value of its own (log 6 says what BUF reads as there, log 9 that OUT is never read). -/
abbrev BitMem := List (Nat × Bool)

/-- The packet lifecycle PSTATE (10_state.md rule R27); value 3 never occurs. -/
inductive PState where
  | empty
  | decoded
  | encoded
  deriving DecidableEq, Repr

/-- The payload `userDataWords` (10_state.md rules R24 to R26): the tag UTAG and, by tag, either UVAL or DESC and INNER. -/
inductive Payload where
  /-- UTAG = 0: the raw integer UVAL -/
  | raw (uval : BitVec 2550)
  /-- UTAG = 1: the descriptor DESC and the opaque model INNER -/
  | delegated (desc : BitVec 16) (inner : Inner)
  deriving DecidableEq, Repr

/-- The causes a command can fault for (60_exceptions.md rule R220). Raising one is a NEXT state (rule R230), not a stop. -/
inductive Cause where
  | truncatedInput
  | inconsistentWordCount
  | illegalCommand
  | badOperand
  | noPacket
  | descriptorUnderrun
  | payloadCodecFault
  | wordCountOverflow
  deriving DecidableEq, Repr

/-- A fault a command raises: its cause and the information recorded in FINFO (R11 `raise`, R220). -/
structure Raised where
  cause : Cause
  info : Nat
  deriving DecidableEq, Repr

/-- The response to a command (30_encoding.md rule R79). -/
structure Response where
  status : BitVec 4
  dout : BitVec 64
  deriving DecidableEq, Repr

/-- What the host can do to the framer (20_memory.md rule R60), each between two commands. -/
inductive HostAction where
  /-- issue a command -/
  | command (w : CmdWord)
  /-- write consecutive bits of BUF, the first at this bit address -/
  | writeBuf (addr : Nat) (bits : Bits)
  /-- read OUT[0 .. OLEN−1] and write those bits into BUF from address 0 (44_packet.md rule R172, program P4) -/
  | copyOut
  /-- assert the hardware reset (70_reset_and_hazards.md rule R250) -/
  | hardReset
  deriving DecidableEq, Repr

/-- The whole state (10_state.md rule R20), then the model's own fields (log 1, 2, 3, 5, 6). -/
structure State where
  /-- C, `continuation` (R21) -/
  c : BitVec 1
  /-- LINE, `lineNumber` (R21) -/
  line : BitVec 11
  /-- HOFF, `horizontalOffset` (R21) -/
  hoff : BitVec 12
  /-- S, `fieldFlag` (R21) -/
  sflag : BitVec 1
  /-- STREAM, `streamNumber` (R21) -/
  stream : BitVec 7
  /-- DID, Data ID (R22) -/
  did : BitVec 8
  /-- SDID, Secondary Data ID (R22) -/
  sdid : BitVec 8
  /-- WC, `wordCount` (R22) -/
  wc : BitVec 8
  /-- CS, `checksumWord` (R23) -/
  cs : BitVec 9
  /-- UTAG with UVAL, or with DESC and INNER (R24 to R26) -/
  payload : Payload
  /-- PSTATE (R27) -/
  pstate : PState
  /-- BUF, the input bit buffer (R29) -/
  buf : BitMem
  /-- LEN, how many bits of BUF the cursor covers (R29) -/
  len : BitVec 24
  /-- POS, the address of the next bit to be read (R29, R30) -/
  pos : BitVec 24
  /-- OUT, the output bit buffer (R31) -/
  out : BitMem
  /-- OLEN, how many bits of OUT are valid (R31) -/
  olen : BitVec 13
  /-- FAULT, the first fault's code, 0 for none (R32) -/
  fault : BitVec 4
  /-- FINFO, the information recorded with it (R32) -/
  finfo : BitVec 24
  /-- the model's own: the parameters of 00_scope.md rule R6 -/
  params : Params
  /-- the model's own: the response to the last command, none before the first after a reset (R79) -/
  resp : Option Response
  /-- the model's own: what the host does next, in order (R60, R252) -/
  host : List HostAction
  /-- the model's own: how many hardware resets there have been, the counter of the free values of BUF (R39) -/
  resets : Nat
  deriving DecidableEq, Repr

/-- Why the machine stops. A fault of the framer itself (rule R230) is not one of these. -/
inductive Fault where
  /-- Raised by the host actions writeBuf and copyOut when they write a bit at or above BUF_BITS: BUF has no such cell
  (20_memory.md rule R50). SAFE: the model stops where rule R60 gives the host no such move (log 11). -/
  | noSuchBufCell
  deriving DecidableEq, Repr

/-- Why an instruction has no meaning. -/
inductive Refusal where
  /-- Raised by an arm of exec whose instruction is not modelled yet; no arm is left so. SAFE: the model stops. -/
  | notModelled (mnemonic : String)
  deriving DecidableEq, Repr

/-- The machine right after the (first) hardware reset (10_state.md rule R39). The spec gives the packet registers NO
VALUE there; the zeros they hold are the model's (DESIGN CHOICE, log 7), and no command reads them while PSTATE is Empty. -/
def State.reset : State where
  c := 0
  line := 0
  hoff := 0
  sflag := 0
  stream := 0
  did := 0
  sdid := 0
  wc := 0
  cs := 0
  payload := .raw 0
  pstate := .empty
  buf := []
  len := 0
  pos := 0
  out := []
  olen := 0
  fault := 0
  finfo := 0
  params := Config.resetParams
  resp := none
  host := []
  resets := 0

end Sys2Proof.Machine
end

