-- ==== Sys2Proof/Machine/Flags.lean ====
section
/-! DEFINITION. The status bits (spec/10_state.md rule R33: PSTATE, UTAG and FAULT are the only ones; there are no
condition codes, no carry and no overflow flag, and no command sets a flag as a side effect). -/

namespace Sys2Proof.Machine

/-- The value of PSTATE (10_state.md rule R27). -/
def PState.code : PState → BitVec 2
  | .empty => 0
  | .decoded => 1
  | .encoded => 2

/-- The code of a fault (60_exceptions.md rule R220). -/
def Cause.code : Cause → BitVec 4
  | .truncatedInput => 1
  | .inconsistentWordCount => 2
  | .illegalCommand => 3
  | .badOperand => 4
  | .noPacket => 5
  | .descriptorUnderrun => 6
  | .payloadCodecFault => 7
  | .wordCountOverflow => 8

/-- UTAG (10_state.md rule R24). -/
def State.utag (s : State) : BitVec 1 :=
  match s.payload with
  | .raw _ => 0
  | .delegated _ _ => 1

/-- The level output `FAULT ≠ 0` the framer may drive (60_exceptions.md rule R235); no rule depends on it. -/
def State.faultLine (s : State) : Bool := s.fault != 0

end Sys2Proof.Machine
end

