-- ==== Sys2Proof/Machine/Ops.lean ====
section
/-! DEFINITION. The pseudocode primitives (spec/00_scope.md rule R11), the bit memories (20_memory.md), the cursor
(40_bitcursor.md rules R100, R101, R105), and how a command completes, faults or is turned away (60_exceptions.md rules
R230, R231), and the two resets (70_reset_and_hazards.md rule R250). -/

namespace Sys2Proof.Machine

/-! ### Bit lists and values (00_scope.md rules R9, R11) -/

/-- `val(l)`: the unsigned value of a bit list read most-significant first. -/
def val (l : Bits) : Nat := l.foldl (fun acc b => 2 * acc + b.toNat) 0

/-- `bits_n(v)`: the list of bits `v[n−1], ..., v[0]` in stream order. -/
def bitsOf : Nat → Nat → Bits
  | 0, _ => []
  | n + 1, v => v.testBit n :: bitsOf n v

/-- The bits of a register in stream order, `bits_w` at the register's own width. -/
def regBits {w : Nat} (v : BitVec w) : Bits := bitsOf w v.toNat

/-- `zeros(n)`. -/
def zeros (n : Nat) : Bits := List.replicate n false

/-- `popcount8(b)`. -/
def popcount8 (b : Byte) : Nat := (List.range 8).countP fun i => b.getLsbD i

/-! ### The bit memories (20_memory.md rules R50, R57) -/

/-- The value a cell holds, none for an unlisted one. -/
def BitMem.get? : BitMem → Nat → Option Bool
  | [], _ => none
  | (k, b) :: m, a => if k = a then some b else BitMem.get? m a

/-- Write one cell, keeping addresses strictly rising. -/
def BitMem.set : BitMem → Nat → Bool → BitMem
  | [], a, b => [(a, b)]
  | (k, c) :: m, a, b =>
    if a < k then (a, b) :: (k, c) :: m else if a = k then (a, b) :: m else (k, c) :: BitMem.set m a b

/-- Write consecutive cells, the first at `a`. -/
def BitMem.setBits : BitMem → Nat → Bits → BitMem
  | m, _, [] => m
  | m, a, b :: bs => BitMem.setBits (BitMem.set m a b) (a + 1) bs

/-- The memory that holds exactly these bits, from address `a` on. -/
def BitMem.ofBits : Nat → Bits → BitMem
  | _, [] => []
  | a, b :: bs => (a, b) :: BitMem.ofBits (a + 1) bs

/-- The canonical form: addresses strictly rising. -/
def BitMem.wf : BitMem → Bool
  | [] => true
  | (k, _) :: m => (m.all fun kb => k < kb.1) && BitMem.wf m

/-- One cell of BUF as the framer sees it: the bit last written there, or, where the host has written none since the
last hardware reset, a free value (10_state.md rule R39, 93_implementation_defined.md U18; log 6). -/
def State.bufBit (s : State) (a : Nat) : Bool := (s.buf.get? a).getD (Config.powerOnBit s.resets a)

/-- The `n` bits of BUF from `a` on, in stream order. -/
def State.bufBits (s : State) (a n : Nat) : Bits := (List.range n).map fun i => s.bufBit (a + i)

/-- `MemRead(addr, n)` (R11, R50); the callers have tested `addr + n ≤ LEN`. -/
def State.memRead (s : State) (a n : Nat) : Nat := val (s.bufBits a n)

/-- `MemWrite(0, len(bits), val(bits))` by PKENC: the whole of OUT is replaced (R11, 10_state.md rule R31, R57). -/
def State.writeOut (s : State) (bits : Bits) : State :=
  { s with out := BitMem.ofBits 0 bits, olen := BitVec.ofNat 13 bits.length }

/-- The bits OUT[0 .. OLEN−1], as the host reads them (R31, R60): the cells below OLEN, each of which holds a value. -/
def State.outBits (s : State) : Bits := (List.range s.olen.toNat).filterMap fun i => s.out.get? i

/-! ### The cursor (40_bitcursor.md). The position is threaded as the natural number `p`; POS itself is written when the
command completes (R11: all writes take effect together). -/

/-- `read(n)` (R100): the next `n` bits and the advanced position, or TruncatedInput. -/
def read (s : State) (n p : Nat) : Except Raised (Nat × Nat) :=
  if s.len.toNat - p < n then .error ⟨.truncatedInput, n⟩ else .ok (s.memRead p n, p + n)

/-- `skip(n)` (R101): the advanced position, or TruncatedInput. -/
def skip (s : State) (n p : Nat) : Except Raised Nat :=
  if s.len.toNat - p < n then .error ⟨.truncatedInput, n⟩ else .ok (p + n)

/-- `readWide(n)` (R105): as `read(n)`, for the widths 0 to 2550 of the raw payload. -/
def readWide (s : State) (n p : Nat) : Except Raised (Nat × Nat) :=
  if s.len.toNat - p < n then .error ⟨.truncatedInput, n⟩ else .ok (s.memRead p n, p + n)

/-- `POS <- p` (R11). -/
def State.setPos (s : State) (p : Nat) : State := { s with pos := BitVec.ofNat 24 p }

/-! ### How a command ends -/

/-- The answer to a command (30_encoding.md rule R79): `dout` zero-extended to 64 bits. -/
def State.respond (s : State) (status : BitVec 4) (dout : Nat) : State :=
  { s with resp := some ⟨status, BitVec.ofNat 64 dout⟩ }

/-- Fault entry (60_exceptions.md rule R230): FAULT and FINFO are recorded, nothing else changes, and the response is the
code with `dout = 0`. -/
def State.raise (s : State) (r : Raised) : State :=
  { s with fault := r.cause.code, finfo := BitVec.ofNat 24 r.info }.respond r.cause.code 0

/-- The answer in the Faulted condition (R231): nothing changes and the response is `status = FAULT`, `dout = 0`. -/
def State.turnAway (s : State) : State := s.respond s.fault 0

/-- A command whose rule starts in `s` and gives `body`: it completes with the state and value computed, or raises its
fault in `s` itself, so that no write made earlier in the command is kept (R8, R11, R230). -/
def complete (s : State) (body : Except Raised (State × Nat)) : Host.Outcome State Fault Refusal :=
  match body with
  | .ok (t, v) => .next (t.respond 0 v)
  | .error r => .next (s.raise r)

/-- A command that runs only while FAULT = 0 (45_system.md rule R180, 60_exceptions.md rule R231). -/
def command (s : State) (body : Except Raised (State × Nat)) : Host.Outcome State Fault Refusal :=
  if s.fault = 0 then complete s body else .next s.turnAway

/-! ### The two resets (10_state.md rule R39, 70_reset_and_hazards.md rule R250) -/

/-- The state after `RST`: every component at its reset value but BUF, which keeps its contents. What is no component
of the framer stays: the parameters, the host's coming actions, and the counter of BUF's free values. -/
def State.softReset (s : State) : State :=
  { State.reset with buf := s.buf, params := s.params, host := s.host, resets := s.resets }

/-- The state after the hardware reset: as after `RST`, with the contents of BUF unspecified anew, and no response. -/
def State.hardReset (s : State) : State :=
  { s.softReset with buf := [], resets := s.resets + 1 }

end Sys2Proof.Machine
end

