-- ==== Sys2Proof/Machine/Operands.lean ====
section
/-! DEFINITION. The operand forms with a rule of their own: register operands (spec/10_state.md rule R34, 45_system.md rule
R181) and the digits of UVAL (10_state.md rule R25, 45_system.md rules R184, R185). -/

namespace Sys2Proof.Machine

/-- The registers of the register map (10_state.md rule R34). -/
inductive Reg where
  | c | line | hoff | s | stream | did | sdid | wc | cs | utag | desc
  | pstate | pos | len | olen | fault | finfo
  deriving DecidableEq, Repr

/-- The register at an address; none where the address is reserved (R34). -/
def Reg.ofAddr (r : BitVec 8) : Option Reg :=
  match r.toNat with
  | 0x00 => some .c
  | 0x01 => some .line
  | 0x02 => some .hoff
  | 0x03 => some .s
  | 0x04 => some .stream
  | 0x05 => some .did
  | 0x06 => some .sdid
  | 0x07 => some .wc
  | 0x08 => some .cs
  | 0x09 => some .utag
  | 0x0A => some .desc
  | 0x10 => some .pstate
  | 0x11 => some .pos
  | 0x12 => some .len
  | 0x13 => some .olen
  | 0x14 => some .fault
  | 0x15 => some .finfo
  | _ => none

/-- The width of a register in bits (R34). -/
def Reg.width : Reg → Nat
  | .c => 1
  | .line => 11
  | .hoff => 12
  | .s => 1
  | .stream => 7
  | .did => 8
  | .sdid => 8
  | .wc => 8
  | .cs => 9
  | .utag => 1
  | .desc => 16
  | .pstate => 2
  | .pos => 24
  | .len => 24
  | .olen => 13
  | .fault => 4
  | .finfo => 24

/-- The status registers, addresses 0x10 to 0x15 (R34, 45_system.md rule R180); the others are packet registers. -/
def Reg.isStatus : Reg → Bool
  | .pstate | .pos | .len | .olen | .fault | .finfo => true
  | .c | .line | .hoff | .s | .stream | .did | .sdid | .wc | .cs | .utag | .desc => false

/-- Host access "read, write" (R34). -/
def Reg.writable : Reg → Bool
  | .c | .line | .hoff | .s | .stream | .did | .sdid | .wc | .cs | .desc => true
  | .utag | .pstate | .pos | .len | .olen | .fault | .finfo => false

/-- `REG[r]`, the register's value (R182). DESC is held on the delegated path only; the callers have tested that. -/
def State.readReg (s : State) : Reg → Nat
  | .c => s.c.toNat
  | .line => s.line.toNat
  | .hoff => s.hoff.toNat
  | .s => s.sflag.toNat
  | .stream => s.stream.toNat
  | .did => s.did.toNat
  | .sdid => s.sdid.toNat
  | .wc => s.wc.toNat
  | .cs => s.cs.toNat
  | .utag => s.utag.toNat
  | .desc =>
    match s.payload with
    | .delegated d _ => d.toNat
    | .raw _ => 0
  | .pstate => s.pstate.code.toNat
  | .pos => s.pos.toNat
  | .len => s.len.toNat
  | .olen => s.olen.toNat
  | .fault => s.fault.toNat
  | .finfo => s.finfo.toNat

/-- `REG[r] <- v` (R183), `v` fitting the register. The read-only registers are never written; the callers have tested
that, and that DESC is held. -/
def State.writeReg (s : State) (reg : Reg) (v : Nat) : State :=
  match reg with
  | .c => { s with c := BitVec.ofNat 1 v }
  | .line => { s with line := BitVec.ofNat 11 v }
  | .hoff => { s with hoff := BitVec.ofNat 12 v }
  | .s => { s with sflag := BitVec.ofNat 1 v }
  | .stream => { s with stream := BitVec.ofNat 7 v }
  | .did => { s with did := BitVec.ofNat 8 v }
  | .sdid => { s with sdid := BitVec.ofNat 8 v }
  | .wc => { s with wc := BitVec.ofNat 8 v }
  | .cs => { s with cs := BitVec.ofNat 9 v }
  | .desc =>
    match s.payload with
    | .delegated _ inner => { s with payload := .delegated (BitVec.ofNat 16 v) inner }
    | .raw _ => s
  | .utag | .pstate | .pos | .len | .olen | .fault | .finfo => s

/-- Steps 2 and 3 of 45_system.md rule R181: a packet register needs a packet, DESC a delegated payload. -/
def checkReg (s : State) (r : BitVec 8) (reg : Reg) : Except Raised Reg :=
  if reg.isStatus = false ∧ s.pstate = .empty then .error ⟨.noPacket, r.toNat⟩
  else if reg = .desc ∧ s.utag = 0 then .error ⟨.badOperand, r.toNat⟩
  else .ok reg

/-- The register operand of `RDREG` (R181 steps 1 to 3). -/
def readOperand (s : State) (r : BitVec 8) : Except Raised Reg :=
  match Reg.ofAddr r with
  | none => .error ⟨.badOperand, r.toNat⟩
  | some reg => checkReg s r reg

/-- The register operand of `WRREG` (R181 steps 1 to 4). -/
def writeOperand (s : State) (r : BitVec 8) (v : BitVec 16) : Except Raised Reg :=
  match Reg.ofAddr r with
  | none => .error ⟨.badOperand, r.toNat⟩
  | some reg =>
    if reg.writable then do
      let reg ← checkReg s r reg
      if v.toNat < 2 ^ reg.width then .ok reg else .error ⟨.badOperand, r.toNat⟩
    else .error ⟨.badOperand, r.toNat⟩

/-- The digit operand of `RDU` and `WRU` (45_system.md rules R184, R185): UVAL itself, once the index, the packet and the
payload kind are tested, in that order. -/
def digitOperand (s : State) (k : Nat) : Except Raised (BitVec 2550) :=
  if k > 254 then .error ⟨.badOperand, k⟩
  else if s.pstate = .empty then .error ⟨.noPacket, k⟩
  else
    match s.payload with
    | .delegated _ _ => .error ⟨.badOperand, k⟩
    | .raw uval => .ok uval

/-- `UVAL[10k+9 : 10k]` (R25, R184). -/
def readDigit (uval : BitVec 2550) (k : Nat) : BitVec 10 := uval.extractLsb' (10 * k) 10

/-- UVAL with `UVAL[10k+9 : 10k]` replaced by `d` (R185). -/
def writeDigit (uval : BitVec 2550) (k : Nat) (d : BitVec 10) : BitVec 2550 :=
  (uval &&& ~~~((0x3FF#2550) <<< (10 * k))) ||| ((d.setWidth 2550) <<< (10 * k))

end Sys2Proof.Machine
end

