-- ==== Sys2Proof/Machine/Cursor.lean ====
section
/-! DEFINITION. The BitCursor commands CINIT, RD, SK (spec/40_bitcursor.md rules R102 to R104). -/

namespace Sys2Proof.Machine

/-- `CINIT n` (R102). -/
def cinitBody (n : Nat) (s : State) : Except Raised (State × Nat) :=
  if n > s.params.bufBits.toNat then .error ⟨.badOperand, n⟩
  else .ok ({ s with len := BitVec.ofNat 24 n, pos := 0 }, 0)

/-- `CINIT n` (R102). -/
def execCinit (n : Nat) (s : State) : Host.Outcome State Fault Refusal := command s (cinitBody n s)

/-- `RD n` (R103): the width is tested before the bounds. -/
def rdBody (n : Nat) (s : State) : Except Raised (State × Nat) :=
  if n < 1 ∨ n > Config.rdMax then .error ⟨.badOperand, n⟩
  else do
    let (v, p) ← read s n s.pos.toNat
    return (s.setPos p, v)

/-- `RD n` (R103). -/
def execRd (n : Nat) (s : State) : Host.Outcome State Fault Refusal := command s (rdBody n s)

/-- `SK n` (R104). -/
def skBody (n : Nat) (s : State) : Except Raised (State × Nat) := do
  let p ← skip s n s.pos.toNat
  return (s.setPos p, 0)

/-- `SK n` (R104). -/
def execSk (n : Nat) (s : State) : Host.Outcome State Fault Refusal := command s (skBody n s)

end Sys2Proof.Machine
end

