-- ==== Sys2Proof/Machine/WordCodec.lean ====
section
/-! DEFINITION. The WordCodec: the 10-bit parity word, and the commands ENCB and DECB (spec/41_wordcodec.md). -/

namespace Sys2Proof.Machine

/-- `p` of R120: 1 when the byte has an odd number of set bits. -/
def oddParity (b : Byte) : Bool := popcount8 b % 2 == 1

/-- `encodeByte(b)` (R120): `w[9] = NOT p`, `w[8] = p`, `w[7:0] = b`. -/
def encodeByte (b : Byte) : WireWord := BitVec.ofBool (!oddParity b) ++ BitVec.ofBool (oddParity b) ++ b

/-- `decodeByte(w)` (R122): `w[7:0]`; the protection bits are not looked at (R123). -/
def decodeByte (w : WireWord) : Byte := w.extractLsb' 0 8

/-- `ENCB b` (R121). -/
def execEncb (b : Byte) (s : State) : Host.Outcome State Fault Refusal :=
  command s (.ok (s, (encodeByte b).toNat))

/-- `DECB w` (R124). -/
def execDecb (w : WireWord) (s : State) : Host.Outcome State Fault Refusal :=
  command s (.ok (s, (decodeByte w).toNat))

end Sys2Proof.Machine
end

