-- ==== Sys2Proof/Machine/Header.lean ====
section
/-! DEFINITION. The HeaderCodec (spec/42_headercodec.md): the first stage of PKDEC and of PKENC. -/

namespace Sys2Proof.Machine

/-- The eight values of `hdrDecode` (R130). -/
structure Header where
  c : BitVec 1
  line : BitVec 11
  hoff : BitVec 12
  sflag : BitVec 1
  stream : BitVec 7
  did : BitVec 8
  sdid : BitVec 8
  wc : BitVec 8
  deriving DecidableEq, Repr

/-- `readProtected()` (R131): skip the two protection bits unchecked, read the byte. -/
def readProtected (s : State) (p : Nat) : Except Raised (Byte × Nat) := do
  let p ← skip s 2 p
  let (v, p) ← read s 8 p
  return (BitVec.ofNat 8 v, p)

/-- `hdrDecode()` (R130): the 62 header bits at position `p`, and the position after them. -/
def hdrDecode (s : State) (p : Nat) : Except Raised (Header × Nat) := do
  let (c, p) ← read s 1 p
  let (line, p) ← read s 11 p
  let (hoff, p) ← read s 12 p
  let (sflag, p) ← read s 1 p
  let (stream, p) ← read s 7 p
  let (did, p) ← readProtected s p
  let (sdid, p) ← readProtected s p
  let (wc, p) ← readProtected s p
  return ({ c := BitVec.ofNat 1 c, line := BitVec.ofNat 11 line, hoff := BitVec.ofNat 12 hoff,
            sflag := BitVec.ofNat 1 sflag, stream := BitVec.ofNat 7 stream, did, sdid, wc }, p)

/-- `hdrEncode(c, s, stream, did, sdid, wc)` (R133): the 62 header bits, the position fields at their sentinels. -/
def hdrEncode (c sflag : BitVec 1) (stream : BitVec 7) (did sdid wc : Byte) : Bits :=
  regBits c ++ regBits Config.lineSentinel ++ regBits Config.hoffSentinel ++ regBits sflag ++ regBits stream
    ++ regBits (encodeByte did) ++ regBits (encodeByte sdid) ++ regBits (encodeByte wc)

end Sys2Proof.Machine
end

