-- ==== Sys2Proof/Machine/PayloadResolver.lean ====
section
/-! DEFINITION. The PayloadResolver (spec/43_payloadresolver.md): the predicate, its command ISDEL, the PayloadCodec's two
functions, and the two payload paths on decode and on encode. -/

namespace Sys2Proof.Machine

/-- `isDelegated(did, sdid)` (R140). -/
def isDelegated (did sdid : Byte) : Bool := did == Config.delegDid && sdid == Config.delegSdid

/-- `ISDEL did, sdid` (R141). -/
def execIsdel (did sdid : Byte) (s : State) : Host.Outcome State Fault Refusal :=
  command s (.ok (s, (isDelegated did sdid).toNat))

/-- `pcDecode(bytes)` (R144): none is a failure. A free value but where the run's parameters give the answer (log 5). -/
def pcDecode (p : Params) (bytes : List Byte) : Option Inner :=
  (p.decodeTable.lookup bytes).getD (Config.pcDecode bytes)

/-- `pcEncode(inner)` (R144): none is a failure. A free value but where the run's parameters give the answer (log 5). -/
def pcEncode (p : Params) (inner : Inner) : Option (List Byte) :=
  (p.encodeTable.lookup inner).getD (Config.pcEncode inner)

/-- The `wc` protected bytes of a delegated payload (R145), each by `readProtected`. -/
def readBytes (s : State) : Nat → Nat → Except Raised (List Byte × Nat)
  | 0, p => .ok ([], p)
  | wc + 1, p => do
    let (b, p) ← readProtected s p
    let (bs, p) ← readBytes s wc p
    return (b :: bs, p)

/-- `udwDecode` on the delegated path (R145, R147): all bytes are read first, then the descriptor test, then the
PayloadCodec. -/
def udwDecodeDelegated (s : State) (wc p : Nat) : Except Raised (Payload × Nat) := do
  let (bytes, p) ← readBytes s wc p
  if wc < Config.descBytes then .error ⟨.descriptorUnderrun, wc⟩
  else
    let desc := BitVec.ofNat 16 ((bytes.getD 0 0).toNat * 256 + (bytes.getD 1 0).toNat)
    match pcDecode s.params (bytes.drop Config.descBytes) with
    | some inner => .ok (.delegated desc inner, p)
    | none => .error ⟨.payloadCodecFault, 0⟩

/-- `udwDecode` on the raw path (R146): `10·wc` bits as one unsigned integer, nothing skipped. -/
def udwDecodeRaw (s : State) (wc p : Nat) : Except Raised (Payload × Nat) := do
  let (v, p) ← readWide s (10 * wc) p
  return (.raw (BitVec.ofNat 2550 v), p)

/-- The payload stage of PKDEC (R142): the path is chosen by the `did` and `sdid` just decoded. -/
def udwDecode (s : State) (h : Header) (p : Nat) : Except Raised (Payload × Nat) :=
  if isDelegated h.did h.sdid then udwDecodeDelegated s h.wc.toNat p else udwDecodeRaw s h.wc.toNat p

/-- Every byte through `encodeByte`, in order (R148, 91_not_in_source.md N15). -/
def encodeBytes : List Byte → Bits
  | [] => []
  | b :: bs => regBits (encodeByte b) ++ encodeBytes bs

/-- `udwEncode` on the delegated path (R148, R150, R151): the payload bits and the recomputed word count. -/
def udwEncodeDelegated (p : Params) (desc : BitVec 16) (inner : Inner) : Except Raised (Bits × Nat) :=
  match pcEncode p inner with
  | none => .error ⟨.payloadCodecFault, 1⟩
  | some ser =>
    let bytes := [desc.extractLsb' 8 8, desc.extractLsb' 0 8] ++ ser
    let n := bytes.length
    let wc' := n / 2
    if wc' > 255 then .error ⟨.wordCountOverflow, min n (2 ^ 24 - 1)⟩ else .ok (encodeBytes bytes, wc')

/-- `udwEncode` on the raw path (R149): the value at the width of the stored word count. -/
def udwEncodeRaw (wc : BitVec 8) (uval : BitVec 2550) : Except Raised (Bits × Nat) :=
  if uval.toNat ≥ 2 ^ (10 * wc.toNat) then .error ⟨.inconsistentWordCount, wc.toNat⟩
  else .ok (bitsOf (10 * wc.toNat) uval.toNat, wc.toNat)

/-- The payload stage of PKENC (R143): the path is chosen by the stored tag, not by DID and SDID. -/
def udwEncode (s : State) : Except Raised (Bits × Nat) :=
  match s.payload with
  | .delegated desc inner => udwEncodeDelegated s.params desc inner
  | .raw uval => udwEncodeRaw s.wc uval

end Sys2Proof.Machine
end

