-- ==== Sys2Proof/Machine/Packet.lean ====
section
/-! DEFINITION. The AncillaryPacket (spec/44_packet.md): the trailer, the padding, and the commands PADLEN, PKDEC, PKENC. -/

namespace Sys2Proof.Machine

/-- `trailerDecode()` (R163): the inverse-parity bit is skipped unchecked (R164), the 9 bits of CS are read. -/
def trailerDecode (s : State) (p : Nat) : Except Raised (BitVec 9 × Nat) := do
  let p ← skip s 1 p
  let (cs, p) ← read s 9 p
  return (BitVec.ofNat 9 cs, p)

/-- `trailerEncode(cs)` (R165): the complement of `cs[8]`, then the nine bits. -/
def trailerEncode (cs : BitVec 9) : Bits := (!cs.getLsbD 8) :: regBits cs

/-- `padLen(w)` (R167): `32 − ((10·w − 2 + 10) mod 32)`, the expression in brackets being `10·w + 8`. -/
def padLen (w : Nat) : Nat := Config.alignBits - (10 * w + 8) % Config.alignBits

/-- `PADLEN b` (R168). -/
def execPadlen (b : Byte) (s : State) : Host.Outcome State Fault Refusal := command s (.ok (s, padLen b.toNat))

/-- The packet registers of a decoded packet, all written together (R160); PSTATE becomes Decoded (10_state.md R27). -/
def State.materialise (s : State) (h : Header) (payload : Payload) (cs : BitVec 9) : State :=
  { s with
    c := h.c, line := h.line, hoff := h.hoff, sflag := h.sflag, stream := h.stream
    did := h.did, sdid := h.sdid, wc := h.wc, cs := cs, payload := payload, pstate := .decoded }

/-- `PKDEC` (R160): header, payload, trailer, then every register at once; the padding is not read (R162). -/
def pkdecBody (s : State) : Except Raised (State × Nat) := do
  let (h, p) ← hdrDecode s s.pos.toNat
  let (payload, p) ← udwDecode s h p
  let (cs, p) ← trailerDecode s p
  return ((s.materialise h payload cs).setPos p, 72 + 10 * h.wc.toNat)

/-- `PKDEC` (R160). -/
def execPkdec (s : State) : Host.Outcome State Fault Refusal := command s (pkdecBody s)

/-- The `out` of R170: header, payload, trailer and padding of the packet in the registers, with word count `wc'`. -/
def packetBits (s : State) (payload : Bits) (wc' : Nat) : Bits :=
  hdrEncode s.c s.sflag s.stream s.did s.sdid (BitVec.ofNat 8 wc') ++ payload ++ trailerEncode s.cs
    ++ zeros (padLen wc')

/-- `PKENC` (R170). -/
def pkencBody (s : State) : Except Raised (State × Nat) :=
  if s.pstate = .empty then .error ⟨.noPacket, 0⟩
  else do
    let (payload, wc') ← udwEncode s
    let out := packetBits s payload wc'
    let t := { s with
      line := Config.lineSentinel, hoff := Config.hoffSentinel, wc := BitVec.ofNat 8 wc', pstate := .encoded }
    return (t.writeOut out, out.length)

/-- `PKENC` (R170). -/
def execPkenc (s : State) : Host.Outcome State Fault Refusal := command s (pkencBody s)

end Sys2Proof.Machine
end

