-- ==== Sys2Proof/Machine/System.lean ====
section
/-! DEFINITION. The system commands RDREG, WRREG, RDU, WRU, RST (spec/45_system.md). -/

namespace Sys2Proof.Machine

/-- `RDREG r` (R182). -/
def rdregBody (r : BitVec 8) (s : State) : Except Raised (State × Nat) := do
  let reg ← readOperand s r
  return (s, s.readReg reg)

/-- Does `RDREG r` name a status register, 0x10 to 0x15 (R180)? -/
def isStatusAddr (r : BitVec 8) : Bool := 0x10 ≤ r.toNat && r.toNat ≤ 0x15

/-- `RDREG r` (R182); of a status register it runs in the Faulted condition too (R180). -/
def execRdreg (r : BitVec 8) (s : State) : Host.Outcome State Fault Refusal :=
  if isStatusAddr r then complete s (rdregBody r s) else command s (rdregBody r s)

/-- `WRREG r, v` (R183): that register and nothing else. -/
def wrregBody (r : BitVec 8) (v : BitVec 16) (s : State) : Except Raised (State × Nat) := do
  let reg ← writeOperand s r v
  return (s.writeReg reg v.toNat, 0)

/-- `WRREG r, v` (R183). -/
def execWrreg (r : BitVec 8) (v : BitVec 16) (s : State) : Host.Outcome State Fault Refusal :=
  command s (wrregBody r v s)

/-- `RDU k` (R184). -/
def rduBody (k : Nat) (s : State) : Except Raised (State × Nat) := do
  let uval ← digitOperand s k
  return (s, (readDigit uval k).toNat)

/-- `RDU k` (R184). -/
def execRdu (k : Nat) (s : State) : Host.Outcome State Fault Refusal := command s (rduBody k s)

/-- `WRU k, d` (R185): that digit and nothing else. -/
def wruBody (k : Nat) (d : BitVec 10) (s : State) : Except Raised (State × Nat) := do
  let uval ← digitOperand s k
  return ({ s with payload := .raw (writeDigit uval k d) }, 0)

/-- `WRU k, d` (R185). -/
def execWru (k : Nat) (d : BitVec 10) (s : State) : Host.Outcome State Fault Refusal := command s (wruBody k d s)

/-- `RST` (R186): it runs in every condition and is the only command that clears FAULT. -/
def execRst (s : State) : Host.Outcome State Fault Refusal := complete s (.ok (s.softReset, 0))

end Sys2Proof.Machine
end

