-- ==== Sys2Proof/Machine/Dispatch.lean ====
section
/-! DEFINITION. Which meaning each command has (spec/30_encoding.md rule R81). -/

namespace Sys2Proof.Machine

/-- The effect of one command. -/
def exec (i : Instr) (s : State) : Host.Outcome State Fault Refusal :=
  match i with
  | .cinit n => Sys2Proof.Machine.execCinit n s
  | .rd n => Sys2Proof.Machine.execRd n s
  | .sk n => Sys2Proof.Machine.execSk n s
  | .encb b => Sys2Proof.Machine.execEncb b s
  | .decb w => Sys2Proof.Machine.execDecb w s
  | .isdel did sdid => Sys2Proof.Machine.execIsdel did sdid s
  | .padlen b => Sys2Proof.Machine.execPadlen b s
  | .pkdec => Sys2Proof.Machine.execPkdec s
  | .pkenc => Sys2Proof.Machine.execPkenc s
  | .rdreg r => Sys2Proof.Machine.execRdreg r s
  | .wrreg r v => Sys2Proof.Machine.execWrreg r v s
  | .rdu k => Sys2Proof.Machine.execRdu k s
  | .wru k d => Sys2Proof.Machine.execWru k d s
  | .rst => Sys2Proof.Machine.execRst s

end Sys2Proof.Machine
end

