-- ==== Sys2Proof/Machine/HostPort.lean ====
section
/-! DEFINITION. What the host does to the framer (spec/20_memory.md rule R60): a command word is decoded and run, BUF is
written, OUT is copied, the hardware reset is asserted. -/

namespace Sys2Proof.Machine

/-- A command word arrives (60_exceptions.md rule R237): the Faulted condition is tested first and turns an illegal word
away as it does any other (R231); then an illegal word raises IllegalCommand with FINFO = cmd[23:0] (30_encoding.md rule
R82), and a legal one is run. The Faulted condition of a legal word is tested by its own meaning (45_system.md R180). -/
def runWord (w : CmdWord) (s : State) : Host.Outcome State Fault Refusal :=
  match decode w with
  | .ok i => exec i s
  | .error _ => command s (.error ⟨.illegalCommand, (CmdWord.arg w).toNat⟩)

/-- The host writes bits of BUF (R60): each cell written reads as the new bit from the next command on. BUF has BUF_BITS
cells and no others (R50). -/
def hostWrite (addr : Nat) (bits : Bits) (s : State) : Host.Outcome State Fault Refusal :=
  if addr + bits.length ≤ s.params.bufBits.toNat then .next { s with buf := s.buf.setBits addr bits }
  else .fault .noSuchBufCell

/-- One host action, taken off the front of what the host does next. -/
def hostAct (a : HostAction) (s : State) : Host.Outcome State Fault Refusal :=
  match a with
  | .command w => runWord w s
  | .writeBuf addr bits => hostWrite addr bits s
  | .copyOut => hostWrite 0 s.outBits s
  | .hardReset => .next s.hardReset

end Sys2Proof.Machine
end

