-- ==== Sys2Proof/Machine/Step.lean ====
section
/-! DEFINITION. One step: the host's next action, or none. The framer has no program counter and no instruction memory
(spec/10_state.md rule R30): the host supplies each command. -/

namespace Sys2Proof.Machine

/-- One step: the host's next action is taken (20_memory.md rules R60, R61); with none pending the framer is idle and
nothing happens (60_exceptions.md rules R235, R245). -/
def step (s : State) : Host.Outcome State Fault Refusal :=
  match s.host with
  | [] => .next s
  | a :: rest => hostAct a { s with host := rest }

/-- The state with the command word `w` as the host's next action: the host issues it at the next step (log 1). -/
def State.withFetchWord (s : State) (nbits w : Nat) : State :=
  { s with host := .command (tableWord nbits w) :: s.host }

end Sys2Proof.Machine
end

