-- ==== Sys2Proof/Machine/Assembler.lean ====
section
/-! DEFINITION. The textual form of commands and the pseudo-instructions (spec/30_encoding.md rules R84, R85). Text is a list
of characters. The machine never sees text: the host's assembler makes the command words. -/

namespace Sys2Proof.Machine

/-- The pseudo-instructions (R85). -/
inductive Pseudo where
  /-- read one protected byte -/
  | rdp
  /-- read the trailer -/
  | rdcs
  /-- step over the padding of a raw-path packet whose word count is `b` -/
  | skpad (b : Byte)
  /-- where the cursor is -/
  | rdpos
  deriving DecidableEq, Repr

/-- The expansion of a pseudo-instruction (R85). -/
def Pseudo.expand : Pseudo → List Instr
  | .rdp => [.sk 2, .rd 8]
  | .rdcs => [.sk 1, .rd 9]
  | .skpad b => [.sk (padLen b.toNat)]
  | .rdpos => [.rdreg 0x11]

/-- The value of a digit in a base; none for a character that is no digit of it. -/
def digitOf (base : Nat) (c : Char) : Option Nat :=
  let n := c.toNat
  let d :=
    if 48 ≤ n ∧ n ≤ 57 then some (n - 48)
    else if 97 ≤ n ∧ n ≤ 102 then some (n - 87)
    else if 65 ≤ n ∧ n ≤ 70 then some (n - 55)
    else none
  d.filter fun d => d < base

/-- The number a digit string stands for; `acc` is the value of the digits before it. -/
def digitsOf (base : Nat) : Nat → List Char → Option Nat
  | acc, [] => some acc
  | acc, c :: cs => (digitOf base c).bind fun d => digitsOf base (base * acc + d) cs

/-- A number: hexadecimal with `0x`, else decimal (R84). -/
def numberOf : List Char → Option Nat
  | [] => none
  | ['0', 'x'] => none
  | '0' :: 'x' :: cs => digitsOf 16 0 cs
  | cs => digitsOf 10 0 cs

/-- The name of a register (10_state.md rule R34). -/
def Reg.name : Reg → List Char
  | .c => ['C']
  | .line => ['L', 'I', 'N', 'E']
  | .hoff => ['H', 'O', 'F', 'F']
  | .s => ['S']
  | .stream => ['S', 'T', 'R', 'E', 'A', 'M']
  | .did => ['D', 'I', 'D']
  | .sdid => ['S', 'D', 'I', 'D']
  | .wc => ['W', 'C']
  | .cs => ['C', 'S']
  | .utag => ['U', 'T', 'A', 'G']
  | .desc => ['D', 'E', 'S', 'C']
  | .pstate => ['P', 'S', 'T', 'A', 'T', 'E']
  | .pos => ['P', 'O', 'S']
  | .len => ['L', 'E', 'N']
  | .olen => ['O', 'L', 'E', 'N']
  | .fault => ['F', 'A', 'U', 'L', 'T']
  | .finfo => ['F', 'I', 'N', 'F', 'O']

/-- The register addresses that are not reserved (10_state.md rule R34). -/
def definedAddrs : List (BitVec 8) :=
  [0x00, 0x01, 0x02, 0x03, 0x04, 0x05, 0x06, 0x07, 0x08, 0x09, 0x0A, 0x10, 0x11, 0x12, 0x13, 0x14, 0x15]

/-- A register operand: the register's name, or its address as a number (R84). -/
def regAddrOf (cs : List Char) : Option Nat :=
  match definedAddrs.find? fun r => (Reg.ofAddr r).map Reg.name == some cs with
  | some r => some r.toNat
  | none => numberOf cs

/-- Split at every character that satisfies `p`. -/
def splitAtChar (p : Char → Bool) : List Char → List (List Char)
  | [] => [[]]
  | c :: cs =>
    if p c then [] :: splitAtChar p cs
    else
      match splitAtChar p cs with
      | [] => [[c]]
      | w :: ws => (c :: w) :: ws

/-- Is the character a space or a tab? -/
def isBlank (c : Char) : Bool := c == ' ' || c == '\t'

/-- The text without blanks at either end. -/
def trimBlanks (cs : List Char) : List Char := ((cs.dropWhile isBlank).reverse.dropWhile isBlank).reverse

/-- A bit-vector operand, none where the number does not fit the field (R80). -/
def fieldOf (w n : Nat) : Option (BitVec w) := if n < 2 ^ w then some (BitVec.ofNat w n) else none

/-- The commands of a mnemonic and its operands (R84, R85); none where there is no such line or an operand does not fit
its field. -/
def assembleParts (mnemonic : List Char) (ops : List (List Char)) : Option (List Instr) :=
  let one (i : Instr) : Option (List Instr) := if i.wf then some [i] else none
  match mnemonic, ops with
  | ['C', 'I', 'N', 'I', 'T'], [n] => do one (.cinit (← numberOf n))
  | ['R', 'D'], [n] => do one (.rd (← numberOf n))
  | ['S', 'K'], [n] => do one (.sk (← numberOf n))
  | ['E', 'N', 'C', 'B'], [b] => do one (.encb (← fieldOf 8 (← numberOf b)))
  | ['D', 'E', 'C', 'B'], [w] => do one (.decb (← fieldOf 10 (← numberOf w)))
  | ['I', 'S', 'D', 'E', 'L'], [d, e] => do one (.isdel (← fieldOf 8 (← numberOf d)) (← fieldOf 8 (← numberOf e)))
  | ['P', 'A', 'D', 'L', 'E', 'N'], [b] => do one (.padlen (← fieldOf 8 (← numberOf b)))
  | ['P', 'K', 'D', 'E', 'C'], [] => one .pkdec
  | ['P', 'K', 'E', 'N', 'C'], [] => one .pkenc
  | ['R', 'D', 'R', 'E', 'G'], [r] => do one (.rdreg (← fieldOf 8 (← regAddrOf r)))
  | ['W', 'R', 'R', 'E', 'G'], [r, v] => do one (.wrreg (← fieldOf 8 (← regAddrOf r)) (← fieldOf 16 (← numberOf v)))
  | ['R', 'D', 'U'], [k] => do one (.rdu (← numberOf k))
  | ['W', 'R', 'U'], [k, d] => do one (.wru (← numberOf k) (← fieldOf 10 (← numberOf d)))
  | ['R', 'S', 'T'], [] => one .rst
  | ['R', 'D', 'P'], [] => some Pseudo.rdp.expand
  | ['R', 'D', 'C', 'S'], [] => some Pseudo.rdcs.expand
  | ['S', 'K', 'P', 'A', 'D'], [b] => do some (Pseudo.skpad (← fieldOf 8 (← numberOf b))).expand
  | ['R', 'D', 'P', 'O', 'S'], [] => some Pseudo.rdpos.expand
  | _, _ => none

/-- One line: the mnemonic, then the operands separated by commas; `;` starts a comment to the end of the line (R84). A
line with nothing else on it stands for no command. -/
def assembleLine (line : List Char) : Option (List Instr) :=
  let code := trimBlanks (line.takeWhile fun c => c != ';')
  let mnemonic := code.takeWhile fun c => !isBlank c
  let rest := trimBlanks (code.dropWhile fun c => !isBlank c)
  match code, rest with
  | [], _ => some []
  | _, [] => assembleParts mnemonic []
  | _, _ => assembleParts mnemonic ((splitAtChar (fun c => c == ',') rest).map trimBlanks)

/-- A text, one command a line (R84), as command words; none where a line is no command. -/
def assemble (text : List Char) : Option (List CmdWord) := do
  let lines ← (splitAtChar (fun c => c == '\n') text).mapM assembleLine
  return lines.flatten.map encode

end Sys2Proof.Machine
end

