-- ==== Sys2Proof/Machine/Views.lean ====
section
/-! DEFINITION. The software side (spec/46_views_and_lookup.md): the description lookup and the two views, as functions of
the packet registers and of the tables. No command calls one of them and none changes the state (R200). What the spec
leaves unsaid of the views (R204, R206, R207; 93_implementation_defined.md U28, 91_not_in_source.md N13) is a field of
`ViewFormat`, so the model settles none of it (log 14); when there is a view at all is log 16. -/

namespace Sys2Proof.Machine

/-- An entry of `descTable` (R201): a description, or a map from Secondary Data ID to description. -/
inductive DescEntry where
  | description (text : String)
  | bySdid (map : List (Byte × String))
  deriving DecidableEq, Repr

/-- `descTable` (R201): a partial map from Data ID to an entry. -/
abbrev DescTable := List (Byte × DescEntry)

/-- The numeric fields of a view: the eight header fields and the checksum word (R204). -/
inductive NumField where
  | continuation | lineNumber | horizontalOffset | fieldFlag | streamNumber | did | sdid | wordCount | checksumWord
  deriving DecidableEq, Repr

/-- `valueTable` (R205): a partial map from a field name and raw value to a description. A field is named by its
constructor, since the spelling of the names is unsaid (N13). -/
abbrev ValueTable := List ((NumField × Nat) × String)

/-- `packetInfo(did, sdid)` (R202): the exact pair, else the description of the Data ID, else the empty string. An
unresolved lookup is no fault (R200). -/
def packetInfo (t : DescTable) (did sdid : Byte) : String :=
  match t.lookup did with
  | some (.bySdid m) => (m.lookup sdid).getD ""
  | some (.description text) => text
  | none => ""

/-- What an entry of a view may be. The first ten are R204's; whether the last two are among them is unsaid (N13). -/
inductive ViewField where
  | num (f : NumField)
  /-- the payload (R207) -/
  | userDataWords
  /-- the description of `did` and `sdid` (R202, R204) -/
  | packetInfo
  /-- DESC of a delegated packet (R207) -/
  | descriptor
  deriving DecidableEq, Repr

/-- The entries every view has (R204): the eight header fields, the payload and the checksum word. -/
def requiredFields : List ViewField :=
  [.num .continuation, .num .lineNumber, .num .horizontalOffset, .num .fieldFlag, .num .streamNumber, .num .did, .num .sdid,
    .num .wordCount, .userDataWords, .num .checksumWord]

/-- The value of an entry: a number, a string, or the view the PayloadCodec makes of INNER (R204, R206, R207). -/
inductive ViewValue (α : Type) where
  | number (value : Nat)
  | text (value : String)
  | delegated (view : α)
  deriving DecidableEq, Repr

/-- The form of `<raw>` in an annotated string: "the decimal or the hexadecimal form" (R206). -/
inductive Radix where
  | decimal
  | hexadecimal
  deriving DecidableEq, Repr

/-- What the spec leaves unsaid of the views, as an argument (R204, R206, R207, U28, N13; log 14). `α` is the type of the
PayloadCodec's own views. -/
structure ViewFormat (α : Type) where
  /-- the entries of the mapping, in order, each with its key: so also whether `packetInfo` and DESC are among them -/
  keys : List (ViewField × String)
  /-- how DESC appears where it has an entry, in the plain view (false) and in the display view (true) -/
  descView : Bool → BitVec 16 → ViewValue α
  /-- whether a value of this field below 0x10 gets a leading zero in hexadecimal -/
  leadingZero : NumField → Bool
  /-- the form of `<raw>` of this field -/
  rawRadix : NumField → Radix

/-- The formats that give a mapping with R204's ten entries: each of these once, `packetInfo` and DESC at most once, and
no key twice. -/
def ViewFormat.wf {α : Type} (f : ViewFormat α) : Bool :=
  requiredFields.all (fun v => (f.keys.map Prod.fst).contains v) && decide (f.keys.map Prod.fst).Nodup
    && decide (f.keys.map Prod.snd).Nodup

/-- The raw value of a numeric field (R204), as RDREG returns the register of it. -/
def NumField.raw (s : State) : NumField → Nat
  | .continuation => s.readReg .c
  | .lineNumber => s.readReg .line
  | .horizontalOffset => s.readReg .hoff
  | .fieldFlag => s.readReg .s
  | .streamNumber => s.readReg .stream
  | .did => s.readReg .did
  | .sdid => s.readReg .sdid
  | .wordCount => s.readReg .wc
  | .checksumWord => s.readReg .cs

/-- The payload's entry of a view (R207): the integer, or the collaborator's `toView` of INNER (43_payloadresolver.md rule
R144). DESC is no part of it: it has an entry of its own where the format gives it one (log 14). -/
def payloadView {α : Type} (toView : Inner → Bool → α) (humanReadable : Bool) : Payload → ViewValue α
  | .raw uval => .number uval.toNat
  | .delegated _ inner => .delegated (toView inner humanReadable)

/-- DESC's entry of a view, where the format has one: as the format says (R207); none of a raw packet, which has no DESC. -/
def descriptorView {α : Type} (f : ViewFormat α) (humanReadable : Bool) : Payload → Option (ViewValue α)
  | .raw _ => none
  | .delegated desc _ => some (f.descView humanReadable desc)

/-- The value of one entry of a view; `num` says how a numeric field appears in it. -/
def viewEntry {α : Type} (f : ViewFormat α) (d : DescTable) (toView : Inner → Bool → α) (humanReadable : Bool)
    (num : NumField → Nat → ViewValue α) (s : State) : ViewField → Option (ViewValue α)
  | .num n => some (num n (n.raw s))
  | .userDataWords => some (payloadView toView humanReadable s.payload)
  | .packetInfo => some (.text (packetInfo d s.did s.sdid))
  | .descriptor => descriptorView f humanReadable s.payload

/-- A view: the format's entries in its order, each a key and a value (R204: "a mapping of field name → value"). None where
RDREG would not return the packet registers: with no packet, and in the Faulted condition (log 16). -/
def viewOf {α : Type} (f : ViewFormat α) (d : DescTable) (toView : Inner → Bool → α) (humanReadable : Bool)
    (num : NumField → Nat → ViewValue α) (s : State) : Option (List (String × ViewValue α)) :=
  if s.pstate ≠ .empty ∧ s.fault = 0 then
    some (f.keys.filterMap fun e => (viewEntry f d toView humanReadable num s e.1).map fun v => (e.2, v))
  else none

/-- `toPlainView()` (R204): each field with its raw value. -/
def toPlainView {α : Type} (f : ViewFormat α) (d : DescTable) (toView : Inner → Bool → α) (s : State) :
    Option (List (String × ViewValue α)) :=
  viewOf f d toView false (fun _ raw => .number raw) s

/-- `0x` and lower-case hexadecimal digits (R206); `leadingZero` says whether a value below 0x10 gets one. -/
def hexText (leadingZero : Bool) (n : Nat) : String :=
  let digits := Nat.toDigits 16 n
  String.ofList ('0' :: 'x' :: (if leadingZero ∧ n < 0x10 then '0' :: digits else digits))

/-- `<raw>` of a field (R206). -/
def rawText {α : Type} (f : ViewFormat α) (n : NumField) (raw : Nat) : String :=
  match f.rawRadix n with
  | .decimal => String.ofList (Nat.toDigits 10 raw)
  | .hexadecimal => hexText (f.leadingZero n) raw

/-- The fields the display view renders in hexadecimal (R206). -/
def isHexField : NumField → Bool
  | .did | .sdid | .checksumWord => true
  | .continuation | .lineNumber | .horizontalOffset | .fieldFlag | .streamNumber | .wordCount => false

/-- One numeric field of the display view (R206): the annotated string where the value is described, else hexadecimal for
the three fields that are, else the raw value as in the plain view. That a described value of a hexadecimal field gives
the annotated string is DEDUCED from "any field value" (log 16). -/
def displayField {α : Type} (f : ViewFormat α) (t : ValueTable) (n : NumField) (raw : Nat) : ViewValue α :=
  match t.lookup (n, raw) with
  | some description => .text ("(" ++ rawText f n raw ++ ") " ++ description)
  | none => if isHexField n then .text (hexText (f.leadingZero n) raw) else .number raw

/-- `toDisplayView()` (R206, R207): the plain view but for `displayField`, with the PayloadCodec's human-readable mode. -/
def toDisplayView {α : Type} (f : ViewFormat α) (d : DescTable) (t : ValueTable) (toView : Inner → Bool → α) (s : State) :
    Option (List (String × ViewValue α)) :=
  viewOf f d toView true (displayField f t) s

end Sys2Proof.Machine
end

