-- ==== Sys2Proof/Safety.lean ====
section
/-! DEFINITION. What counts as a safe state, and the terms the statements are written in. -/

namespace Sys2Proof.Machine

/-- The invariant of the framer: what holds in every reachable state (spec/10_state.md rules R29, R31, R32; 20_memory.md
rules R50, R57; 60_exceptions.md rule R220). -/
structure State.Inv (s : State) : Prop where
  /-- 00_scope.md rule R6: `1 ≤ BUF_BITS` (its other bound is the width of the field) -/
  bufBits_pos : 1 ≤ s.params.bufBits.toNat
  /-- R29: `POS ≤ LEN` -/
  pos_le_len : s.pos.toNat ≤ s.len.toNat
  /-- R29: `LEN ≤ BUF_BITS` -/
  len_le_bufBits : s.len.toNat ≤ s.params.bufBits.toNat
  /-- BUF keeps its canonical form -/
  buf_wf : s.buf.wf = true
  /-- R50: BUF has no cell at or above BUF_BITS -/
  buf_below : ∀ kb ∈ s.buf, kb.1 < s.params.bufBits.toNat
  /-- OUT keeps its canonical form: the cells from address 0 on, with no gap -/
  out_cells : s.out = BitMem.ofBits 0 (s.out.map Prod.snd)
  /-- R31: the cells of OUT that hold a value are those below OLEN -/
  out_length : s.out.length = s.olen.toNat
  /-- R57, 44_packet.md rule R171: OUT never overflows -/
  olen_le : s.olen.toNat ≤ Config.outBits
  /-- R220: codes 9 to 15 are never recorded -/
  fault_le : s.fault.toNat ≤ 8
  /-- R220: with no fault recorded FINFO is 0 -/
  finfo_zero : s.fault = 0 → s.finfo = 0
  /-- R39, R170: an output needs a packet -/
  olen_zero : s.pstate = .empty → s.olen = 0

/-- The state after a command that completed in `s` and returned `dout` (00_scope.md rule R8, 30_encoding.md rule R79). -/
def State.completed (s : State) (dout : Nat) : State := { s with resp := some ⟨0#4, BitVec.ofNat 64 dout⟩ }

/-- The state after a command that raised the fault of this code with this information in `s` (60_exceptions.md rule
R230): FAULT and FINFO are recorded, nothing else changes, and the response is the code with `dout = 0`. -/
def State.faulted (s : State) (code : BitVec 4) (info : Nat) : State :=
  { s with fault := code, finfo := BitVec.ofNat 24 info, resp := some ⟨code, 0#64⟩ }

/-- The bits remaining, `LEN − POS` (10_state.md rule R29). -/
def State.left (s : State) : Nat := s.len.toNat - s.pos.toNat

/-- The field of width `w` at offset `off` from the cursor (30_encoding.md rule R77). -/
def State.field (s : State) (off w : Nat) : Nat := s.memRead (s.pos.toNat + off) w

/-- The bits at an offset from the cursor of a packet with word count `wc` that PKDEC reads and keeps (30_encoding.md rule
R78): the others are protection bits, the inverse-parity bit, or after the trailer. -/
def isKeptBit (delegated : Bool) (wc off : Nat) : Bool :=
  (off < 32)
    || (34 ≤ off && off < 42) || (44 ≤ off && off < 52) || (54 ≤ off && off < 62)
    || (62 ≤ off && off < 62 + 10 * wc && (!delegated || 2 ≤ (off - 62) % 10))
    || (63 + 10 * wc ≤ off && off < 72 + 10 * wc)

/-- The data byte number `i` of the delegated payload of the packet at the cursor (30_encoding.md rule R77). -/
def State.payloadByte (s : State) (i : Nat) : Byte := BitVec.ofNat 8 (s.field (64 + 10 * i) 8)

/-- All packet registers set to those of `r` (10_state.md rule R20: C to INNER). -/
def State.withPacketOf (s r : State) : State :=
  { s with
    c := r.c, line := r.line, hoff := r.hoff, sflag := r.sflag, stream := r.stream
    did := r.did, sdid := r.sdid, wc := r.wc, cs := r.cs, payload := r.payload }

end Sys2Proof.Machine
end

