-- ==== Sys2Proof/Certificates/Slice0/Obligations.lean ====
section
/-! DEFINITION. What is stated of the framer. `State.completed` and `State.faulted` (Sys2Proof/Safety.lean) write a next state
out: the response of a completed command, and FAULT, FINFO and the response of a faulting one (spec/60_exceptions.md rule
R230). Rules that the spec marks as its own decision are its rules all the same (spec/92_eei_decisions.md). -/

open Sys2Proof Sys2Proof.Machine

/-! ### The command word (30_encoding.md Part B) -/

/-- Every command that has a word is what the decoder reads from its word, with every operand at every value its field
admits (R79, R80, R84). -/
def Obligations.DecodeOfEncodeIsTheCommand : Prop :=
  ∀ i : Instr, i.wf = true → decode (encode i) = .ok i

/-- The decoder drops no bit: a word it accepts is the word of the command it gives, whose operands fit their fields. -/
def Obligations.EncodeOfDecodedWordIsTheWord : Prop :=
  ∀ (w : CmdWord) (i : Instr), decode w = .ok i → encode i = w ∧ i.wf = true

/-- R80, R81: for each row, a word with `word AND mask = match` is that command with its operands at R80's places, and a
word the decoder accepts fits the row of the command it gives; no word fits two rows. -/
def Obligations.WordIsACommandExactlyWhenItFitsARow : Prop :=
  (∀ w : CmdWord,
    (w &&& 0xFF000000#32 = 0x01000000#32 → decode w = .ok (.cinit (w.extractLsb' 0 24).toNat)) ∧
    (w &&& 0xFFFFFF80#32 = 0x02000000#32 → decode w = .ok (.rd (w.extractLsb' 0 7).toNat)) ∧
    (w &&& 0xFF000000#32 = 0x03000000#32 → decode w = .ok (.sk (w.extractLsb' 0 24).toNat)) ∧
    (w &&& 0xFFFFFF00#32 = 0x04000000#32 → decode w = .ok (.encb (w.extractLsb' 0 8))) ∧
    (w &&& 0xFFFFFC00#32 = 0x05000000#32 → decode w = .ok (.decb (w.extractLsb' 0 10))) ∧
    (w &&& 0xFFFF0000#32 = 0x06000000#32 → decode w = .ok (.isdel (w.extractLsb' 8 8) (w.extractLsb' 0 8))) ∧
    (w &&& 0xFFFFFF00#32 = 0x07000000#32 → decode w = .ok (.padlen (w.extractLsb' 0 8))) ∧
    (w &&& 0xFFFFFFFF#32 = 0x08000000#32 → decode w = .ok .pkdec) ∧
    (w &&& 0xFFFFFFFF#32 = 0x09000000#32 → decode w = .ok .pkenc) ∧
    (w &&& 0xFF00FFFF#32 = 0x0A000000#32 → decode w = .ok (.rdreg (w.extractLsb' 16 8))) ∧
    (w &&& 0xFF000000#32 = 0x0B000000#32 → decode w = .ok (.wrreg (w.extractLsb' 16 8) (w.extractLsb' 0 16))) ∧
    (w &&& 0xFFFC03FF#32 = 0x0C000000#32 → decode w = .ok (.rdu (w.extractLsb' 10 8).toNat)) ∧
    (w &&& 0xFFFC0000#32 = 0x0D000000#32 → decode w = .ok (.wru (w.extractLsb' 10 8).toNat (w.extractLsb' 0 10))) ∧
    (w &&& 0xFFFFFFFF#32 = 0x0E000000#32 → decode w = .ok .rst)) ∧
  (∀ (w : CmdWord) (i : Instr), decode w = .ok i → w &&& i.row.mask = i.row.pattern) ∧
  (∀ w : CmdWord, ∀ r ∈ opcodeTable, ∀ r' ∈ opcodeTable, r.fits w = true → r'.fits w = true → r = r')

/-- Words written out from R80's formats decode to the commands they stand for: twelve of 95_test_vectors.md, that of
`ENCB 0x41` from R121's example and that of `WRU 0, 0x155` from R185's. -/
def Obligations.WordsOfTheVectorsDecode : Prop :=
  decode 0x01000080#32 = .ok (.cinit 128) ∧ decode 0x02000040#32 = .ok (.rd 64) ∧
  decode 0x03000020#32 = .ok (.sk 32) ∧ decode 0x04000041#32 = .ok (.encb 0x41) ∧
  decode 0x050002FF#32 = .ok (.decb 0x2FF) ∧ decode 0x06004107#32 = .ok (.isdel 0x41 0x07) ∧
  decode 0x07000001#32 = .ok (.padlen 1) ∧ decode 0x08000000#32 = .ok .pkdec ∧
  decode 0x09000000#32 = .ok .pkenc ∧ decode 0x0A050000#32 = .ok (.rdreg 0x05) ∧
  decode 0x0B0800F0#32 = .ok (.wrreg 0x08 0x0F0) ∧ decode 0x0C000800#32 = .ok (.rdu 2) ∧
  decode 0x0D000155#32 = .ok (.wru 0 0x155) ∧ decode 0x0E000000#32 = .ok .rst

/-- A word that fits no row raises IllegalCommand with FINFO = cmd[23:0] and does nothing else (R82); such are every
word with opcode 0x00 or 0x0F to 0xFF, and every word with a known opcode that does not fit that opcode's row. -/
def Obligations.IllegalWordRaisesIllegalCommand : Prop :=
  (∀ (s : State) (w : CmdWord) (rest : List HostAction), s.host = .command w :: rest → s.fault = 0 →
    (∀ r ∈ opcodeTable, r.fits w = false) →
    step s = .next (State.faulted { s with host := rest } 3 (w.extractLsb' 0 24).toNat)) ∧
  (∀ w : CmdWord, w.extractLsb' 24 8 = 0x00#8 ∨ 0x0F ≤ (w.extractLsb' 24 8).toNat →
    ∀ r ∈ opcodeTable, r.fits w = false) ∧
  (∀ w : CmdWord, ∀ r ∈ opcodeTable, w.extractLsb' 24 8 = r.pattern.extractLsb' 24 8 → r.fits w = false →
    ∀ r' ∈ opcodeTable, r'.fits w = false)

/-! ### One step and the whole machine -/

/-- When the host's next action is a word that decodes to `i`, the step is `exec i`, on the state from which that action
has been taken. -/
def Obligations.StepRunsTheDecodedCommand : Prop :=
  ∀ (s : State) (w : CmdWord) (rest : List HostAction) (i : Instr), s.host = .command w :: rest →
    decode w = .ok i → step s = exec i { s with host := rest }

/-- With no host action pending nothing happens (R235; log 1). -/
def Obligations.IdleFramerDoesNothing : Prop := ∀ s : State, s.host = [] → step s = .next s

/-- Every command is answered, either with status 0 or with the code that FAULT holds and `dout = 0` (R8, R79). -/
def Obligations.EveryCommandIsAnswered : Prop :=
  ∀ (i : Instr) (s : State), ∃ (t : State) (r : Response), exec i s = .next t ∧ t.resp = some r ∧
    (r.status = 0 ∨ (r.status = t.fault ∧ t.fault ≠ 0 ∧ r.dout = 0))

/-- R230, for every command: where it raises a fault in a state that records none, FAULT and FINFO are written, the
response is the code with `dout = 0`, and nothing else changes. -/
def Obligations.FaultingCommandWritesOnlyFaultAndInfo : Prop :=
  ∀ (i : Instr) (s t : State), exec i s = .next t → s.fault = 0 → t.fault ≠ 0 →
    t = { s with fault := t.fault, finfo := t.finfo, resp := some ⟨t.fault, 0⟩ } ∧ t.fault.toNat ≤ 8

/-- R231: in the Faulted condition a command other than RST or RDREG of a status register, and an illegal word too,
changes nothing and is answered with FAULT and `dout = 0`. -/
def Obligations.FaultedFramerTurnsCommandsAway : Prop :=
  (∀ (i : Instr) (s : State), s.fault ≠ 0 → i ≠ .rst →
    (∀ r : BitVec 8, i = .rdreg r → ¬ (0x10 ≤ r.toNat ∧ r.toNat ≤ 0x15)) →
    exec i s = .next { s with resp := some ⟨s.fault, 0⟩ }) ∧
  (∀ (s : State) (w : CmdWord) (rest : List HostAction), s.host = .command w :: rest → s.fault ≠ 0 →
    (∀ r ∈ opcodeTable, r.fits w = false) →
    step s = .next { s with host := rest, resp := some ⟨s.fault, 0⟩ })

/-- A recorded fault stays, with its information, through every step but RST and the hardware reset, and those two clear
it (R32, R232). -/
def Obligations.OnlyResetClearsTheFault : Prop :=
  ∀ (s t : State), s.fault ≠ 0 → step s = .next t →
    ((s.host.head? = some (.command 0x0E000000#32) ∨ s.host.head? = some .hardReset) → t.fault = 0 ∧ t.finfo = 0) ∧
    (¬ (s.host.head? = some (.command 0x0E000000#32) ∨ s.host.head? = some .hardReset) →
      t.fault = s.fault ∧ t.finfo = s.finfo)

/-- Every step, from every state that meets the invariant, gives a state that meets it. -/
def Obligations.StepKeepsTheInvariant : Prop := ∀ s t : State, s.Inv → step s = .next t → t.Inv

/-- The reset state meets the invariant. -/
def Obligations.ResetStateMeetsTheInvariant : Prop := State.reset.Inv

/-- What reset leaves, for the values R39 gives: the first state, RST, and the hardware reset. RST keeps the contents of
BUF (R186, R250); the hardware reset gives no response (R250). -/
def Obligations.ResetLeavesTheStatedValues : Prop :=
  (State.reset.pstate = .empty ∧ State.reset.pos = 0 ∧ State.reset.len = 0 ∧ State.reset.olen = 0 ∧
    State.reset.fault = 0 ∧ State.reset.finfo = 0) ∧
  (∀ s : State, ∃ t, exec .rst s = .next t ∧ t.pstate = .empty ∧ t.pos = 0 ∧ t.len = 0 ∧ t.olen = 0 ∧ t.fault = 0 ∧
    t.finfo = 0 ∧ t.buf = s.buf ∧ (∀ a, t.bufBit a = s.bufBit a) ∧ t.resp = some ⟨0, 0⟩) ∧
  (∀ (s : State) (rest : List HostAction), s.host = .hardReset :: rest → ∃ t, step s = .next t ∧ t.pstate = .empty ∧
    t.pos = 0 ∧ t.len = 0 ∧ t.olen = 0 ∧ t.fault = 0 ∧ t.finfo = 0 ∧ t.resp = none)

/-- RST in full, in every condition (R186): every field of the state after it. The zeros in the packet registers are
the model's choice (log 7), and so is that the parameters, the host's coming actions and `resets` stay (log 1, 3, 6). -/
def Obligations.RstCompletes : Prop :=
  ∀ s : State, exec .rst s = .next
    { c := 0, line := 0, hoff := 0, sflag := 0, stream := 0, did := 0, sdid := 0, wc := 0, cs := 0, payload := .raw 0,
      pstate := .empty, buf := s.buf, len := 0, pos := 0, out := [], olen := 0, fault := 0, finfo := 0,
      params := s.params, resp := some ⟨0, 0⟩, host := s.host, resets := s.resets }

/-- No command writes BUF (R29), and none changes the parameters (R251) or the model's own inputs. -/
def Obligations.NoCommandWritesBuf : Prop :=
  ∀ (i : Instr) (s t : State), exec i s = .next t →
    t.buf = s.buf ∧ (∀ a, t.bufBit a = s.bufBit a) ∧ t.params = s.params ∧ t.host = s.host ∧ t.resets = s.resets

/-- LEN is written by CINIT and RST only, and nothing moves POS backwards but those two (R30, R106). -/
def Obligations.CursorMovesForward : Prop :=
  ∀ (i : Instr) (s t : State), s.Inv → exec i s = .next t → i ≠ .rst → (∀ n, i ≠ .cinit n) →
    t.len = s.len ∧ s.pos.toNat ≤ t.pos.toNat ∧ t.pos.toNat ≤ t.len.toNat

/-- UTAG is written by PKDEC and reset only, and so is INNER (R24, R187): no other command changes the payload's kind or
its opaque model. -/
def Obligations.PayloadKindChangesOnlyByDecodeOrReset : Prop :=
  ∀ (i : Instr) (s t : State), exec i s = .next t → i ≠ .pkdec → i ≠ .rst →
    t.utag = s.utag ∧ (∀ d inner, s.payload = .delegated d inner → ∃ d', t.payload = .delegated d' inner)

/-- CS is carried: only PKDEC, WRREG of CS, and reset write it (R20, R166). -/
def Obligations.ChecksumWordIsCarried : Prop :=
  ∀ (i : Instr) (s t : State), exec i s = .next t → i ≠ .pkdec → i ≠ .rst → (∀ v, i ≠ .wrreg 0x08 v) → t.cs = s.cs

/-- The packet lifecycle (R27): to Decoded by a completed PKDEC from any state, to Encoded by a completed PKENC from
Decoded or Encoded, to Empty by reset, and by nothing else. -/
def Obligations.PacketLifecycle : Prop :=
  ∀ (i : Instr) (s t : State), exec i s = .next t →
    (i ≠ .pkdec → i ≠ .pkenc → i ≠ .rst → t.pstate = s.pstate) ∧
    (i = .rst → t.pstate = .empty) ∧
    (i = .pkdec → t.fault = 0 → t.pstate = .decoded) ∧
    (i = .pkenc → t.fault = 0 → s.pstate ≠ .empty ∧ t.pstate = .encoded) ∧
    (t.fault ≠ 0 → t.pstate = s.pstate)

/-- While PSTATE is Empty the packet registers hold no value (R27, R39): two states that differ in them alone answer every
command alike and stay alike but for them, and are one state once a packet is materialised. So the zeros State.reset
puts there (log 7) are seen by no command. -/
def Obligations.EmptyPacketRegistersAreUnseen : Prop :=
  ∀ (i : Instr) (s r t : State), s.pstate = .empty → exec i s = .next t →
    ∃ t', exec i (s.withPacketOf r) = .next t' ∧ t'.withPacketOf t = t ∧ (t.pstate ≠ .empty → t' = t)

/-! ### The input buffer and the cursor (20_memory.md, 40_bitcursor.md) -/

/-- `MemRead(addr, n)` is the value of the `n` bits from `addr` on, the first bit the most significant (R9, R50). -/
def Obligations.ReadIsMostSignificantBitFirst : Prop :=
  ∀ (s : State) (a n : Nat), s.memRead a n < 2 ^ n ∧
    ∀ i, i < n → (s.memRead a n).testBit (n - 1 - i) = s.bufBit (a + i)

/-- A read cut in two (R52): `MemRead(a, m+n) = MemRead(a, m) · 2^n + MemRead(a+m, n)`. -/
def Obligations.SuccessiveReadsTile : Prop :=
  ∀ (s : State) (a m n : Nat), s.memRead a (m + n) = s.memRead a m * 2 ^ n + s.memRead (a + m) n

/-- A host write to BUF (R60): each bit written reads as the new bit from then on, every other bit as before, and nothing
else changes. A write of a bit BUF does not have stops the machine: the model's choice (log 11). -/
def Obligations.HostWriteIsReadBack : Prop :=
  ∀ (s : State) (addr : Nat) (bits : Bits) (rest : List HostAction), s.host = .writeBuf addr bits :: rest →
    (addr + bits.length ≤ s.params.bufBits.toNat →
      ∃ t, step s = .next t ∧ t = { s with host := rest, buf := t.buf } ∧
        (∀ i (h : i < bits.length), t.bufBit (addr + i) = bits[i]) ∧
        (∀ a, (a < addr ∨ addr + bits.length ≤ a) → t.bufBit a = s.bufBit a)) ∧
    (s.params.bufBits.toNat < addr + bits.length → step s = .fault .noSuchBufCell)

/-- CINIT (R102). -/
def Obligations.CinitOpensTheCursor : Prop :=
  (∀ n, encode (.cinit n) = 0x01#8 ++ BitVec.ofNat 24 n) ∧
  ∀ (n : Nat) (s : State), s.fault = 0 →
    (n ≤ s.params.bufBits.toNat →
      exec (.cinit n) s = .next (State.completed { s with len := BitVec.ofNat 24 n, pos := 0 } 0) ∧
        (BitVec.ofNat 24 n).toNat = n) ∧
    (s.params.bufBits.toNat < n → exec (.cinit n) s = .next (s.faulted 4 n))

/-- RD (R103): the width is tested first, then the bounds; a completed RD returns the next `n` bits, a value below `2^n`,
and advances POS by `n`. -/
def Obligations.RdReadsTheNextBits : Prop :=
  (∀ n, encode (.rd n) = 0x02#8 ++ (0#17 ++ BitVec.ofNat 7 n)) ∧
  ∀ (n : Nat) (s : State), s.fault = 0 →
    ((n = 0 ∨ 64 < n) → exec (.rd n) s = .next (s.faulted 4 n)) ∧
    (1 ≤ n → n ≤ 64 → s.left < n → exec (.rd n) s = .next (s.faulted 1 n)) ∧
    (1 ≤ n → n ≤ 64 → n ≤ s.left →
      exec (.rd n) s =
        .next (State.completed { s with pos := BitVec.ofNat 24 (s.pos.toNat + n) } (s.memRead s.pos.toNat n)) ∧
      (BitVec.ofNat 24 (s.pos.toNat + n)).toNat = s.pos.toNat + n ∧ s.memRead s.pos.toNat n < 2 ^ n)

/-- SK (R104): POS advances by `n`, or TruncatedInput leaves it. -/
def Obligations.SkSkips : Prop :=
  (∀ n, encode (.sk n) = 0x03#8 ++ BitVec.ofNat 24 n) ∧
  ∀ (n : Nat) (s : State), s.fault = 0 →
    (s.left < n → exec (.sk n) s = .next (s.faulted 1 n)) ∧
    (n ≤ s.left →
      exec (.sk n) s = .next (State.completed { s with pos := BitVec.ofNat 24 (s.pos.toNat + n) } 0) ∧
      (BitVec.ofNat 24 (s.pos.toNat + n)).toNat = s.pos.toNat + n)

/-- What CINIT, RD and SK leave unchanged: everything but LEN (CINIT only), POS, and what a fault and the response write.
None stores to BUF or OUT. -/
def Obligations.CursorCommandsFrame : Prop :=
  ∀ (n : Nat) (i : Instr) (s t : State), (i = .cinit n ∨ i = .rd n ∨ i = .sk n) → exec i s = .next t →
    t = { s with len := t.len, pos := t.pos, fault := t.fault, finfo := t.finfo, resp := t.resp } ∧
    (i ≠ .cinit n → t.len = s.len) ∧
    (∀ a, t.bufBit a = s.bufBit a) ∧ (∀ a, t.out.get? a = s.out.get? a)

/-! ### The word codec, the predicate, the padding (41, 43, 44) -/

/-- `encodeByte(b)` (R120): bit 8 is 1 exactly for an odd number of set bits, bit 9 its complement, the low byte `b`. -/
def Obligations.EncodeByteMakesTheParityWord : Prop :=
  ∀ b : Byte,
    ((encodeByte b).getLsbD 8 = true ↔ ((List.range 8).countP fun i => b.getLsbD i) % 2 = 1) ∧
    (encodeByte b).getLsbD 9 = !(encodeByte b).getLsbD 8 ∧ (encodeByte b).extractLsb' 0 8 = b

/-- The laws of R126: decode undoes encode; encode undoes decode exactly for the well-formed words; encode is injective. -/
def Obligations.WordCodecLaws : Prop :=
  (∀ b : Byte, decodeByte (encodeByte b) = b) ∧
  (∀ w : WireWord, encodeByte (decodeByte w) = w ↔
    ((w.getLsbD 8 = true ↔ ((List.range 8).countP fun i => w.getLsbD i) % 2 = 1) ∧ w.getLsbD 9 = !w.getLsbD 8)) ∧
  (∀ b b' : Byte, encodeByte b = encodeByte b' → b = b')

/-- ENCB and DECB return `encodeByte` and the low byte, whatever the protection bits, and change nothing (R121, R122,
R124). -/
def Obligations.EncbAndDecbComplete : Prop :=
  (∀ b, encode (.encb b) = 0x04#8 ++ (0#16 ++ b)) ∧ (∀ w, encode (.decb w) = 0x05#8 ++ (0#14 ++ w)) ∧
  ∀ s : State, s.fault = 0 →
    (∀ b, exec (.encb b) s = .next (s.completed (encodeByte b).toNat)) ∧
    (∀ w, exec (.decb w) s = .next (s.completed (w.extractLsb' 0 8).toNat))

/-- ISDEL returns 1 for did 0x41 with sdid 0x07 and 0 for every other pair, reads no register and changes nothing (R140,
R141). -/
def Obligations.IsdelCompletes : Prop :=
  (∀ did sdid, encode (.isdel did sdid) = 0x06#8 ++ (0#8 ++ did ++ sdid)) ∧
  ∀ (did sdid : Byte) (s : State), s.fault = 0 →
    exec (.isdel did sdid) s = .next (s.completed (if did = 0x41 ∧ sdid = 0x07 then 1 else 0))

/-- PADLEN returns `32 − ((10·b + 8) mod 32)`, reads no register and changes nothing (R167, R168). -/
def Obligations.PadlenCompletes : Prop :=
  (∀ b, encode (.padlen b) = 0x07#8 ++ (0#16 ++ b)) ∧
  ∀ (b : Byte) (s : State), s.fault = 0 →
    exec (.padlen b) s = .next (s.completed (32 - (10 * b.toNat + 8) % 32))

/-- The padding length (R167): even, from 2 to 32, a function of the word count mod 16 with the table's values, and 32
exactly for 12. The form with `40 + 10·w` is the inference R167 marks [derived: from this rule]. -/
def Obligations.PaddingLengthLaw : Prop :=
  ∀ w : Nat, padLen w = 32 - (10 * w + 8) % 32 ∧ padLen w = 32 - (40 + 10 * w) % 32 ∧ padLen w % 2 = 0 ∧ 2 ≤ padLen w ∧ padLen w ≤ 32 ∧
    padLen w = [24, 14, 4, 26, 16, 6, 28, 18, 8, 30, 20, 10, 32, 22, 12, 2].getD (w % 16) 0 ∧
    (padLen w = 32 ↔ w % 16 = 12)

/-- What the commands that only compute or read leave unchanged: ENCB, DECB, ISDEL and PADLEN everything but the
response; RDREG and RDU everything but the response and what a fault writes. None stores to BUF or OUT. -/
def Obligations.ReadingCommandsFrame : Prop :=
  ∀ (i : Instr) (s t : State), exec i s = .next t →
    ((∃ b, i = .encb b) ∨ (∃ w, i = .decb w) ∨ (∃ d e, i = .isdel d e) ∨ (∃ b, i = .padlen b) →
      t = { s with resp := t.resp } ∧ (∀ a, t.bufBit a = s.bufBit a) ∧ (∀ a, t.out.get? a = s.out.get? a)) ∧
    ((∃ r, i = .rdreg r) ∨ (∃ k, i = .rdu k) →
      t = { s with fault := t.fault, finfo := t.finfo, resp := t.resp } ∧
      (∀ a, t.bufBit a = s.bufBit a) ∧ (∀ a, t.out.get? a = s.out.get? a))

/-! ### The header codec (42_headercodec.md) -/

/-- Decoding the output of `hdrEncode` gives its inputs back, with LINE and HOFF at the sentinels (R135). -/
def Obligations.HeaderDecodeOfEncode : Prop :=
  ∀ (s : State) (p : Nat) (c f : BitVec 1) (stream : BitVec 7) (did sdid wc : Byte), p + 62 ≤ s.len.toNat →
    s.bufBits p 62 = hdrEncode c f stream did sdid wc →
    hdrDecode s p = .ok ({
      c := c, line := 0x7FF, hoff := 0xFFF, sflag := f, stream := stream, did := did, sdid := sdid, wc := wc }, p + 62)

/-- The pseudo-instruction RDP reads one protected byte (R85, R131): its two commands return the byte of the wire word at
the cursor and advance POS by 10. -/
def Obligations.RdpReadsAProtectedByte : Prop :=
  Pseudo.expand .rdp = [.sk 2, .rd 8] ∧
  ∀ s : State, s.fault = 0 → 10 ≤ s.left → ∃ t u, exec (.sk 2) s = .next t ∧ exec (.rd 8) t = .next u ∧
    u = State.completed { s with pos := BitVec.ofNat 24 (s.pos.toNat + 10) }
      (decodeByte (BitVec.ofNat 10 (s.memRead s.pos.toNat 10))).toNat

/-! ### PKDEC (43_payloadresolver.md, 44_packet.md) -/

/-- PKDEC on the raw path (R77, R146, R160, R161): every packet register at once, POS past the trailer. -/
def Obligations.PkdecRawCompletes : Prop :=
  ∀ s : State, s.fault = 0 → ¬ (s.field 34 8 = 0x41 ∧ s.field 44 8 = 0x07) → 72 + 10 * s.field 54 8 ≤ s.left →
    exec .pkdec s = .next (State.completed { s with
      c := BitVec.ofNat 1 (s.field 0 1), line := BitVec.ofNat 11 (s.field 1 11)
      hoff := BitVec.ofNat 12 (s.field 12 12), sflag := BitVec.ofNat 1 (s.field 24 1)
      stream := BitVec.ofNat 7 (s.field 25 7), did := BitVec.ofNat 8 (s.field 34 8)
      sdid := BitVec.ofNat 8 (s.field 44 8), wc := BitVec.ofNat 8 (s.field 54 8)
      payload := .raw (BitVec.ofNat 2550 (s.field 62 (10 * s.field 54 8)))
      cs := BitVec.ofNat 9 (s.field (63 + 10 * s.field 54 8) 9)
      pstate := .decoded, pos := BitVec.ofNat 24 (s.pos.toNat + (72 + 10 * s.field 54 8)) } (72 + 10 * s.field 54 8))

/-- PKDEC on the delegated path (R77, R145, R160, R161), where the PayloadCodec accepts the bytes after the descriptor.
The PayloadCodec is a parameter of the model: this holds for every answer it gives. -/
def Obligations.PkdecDelegatedCompletes : Prop :=
  ∀ (s : State) (inner : Inner), s.fault = 0 → s.field 34 8 = 0x41 → s.field 44 8 = 0x07 → 2 ≤ s.field 54 8 →
    72 + 10 * s.field 54 8 ≤ s.left →
    pcDecode s.params ((List.range (s.field 54 8 - 2)).map fun i => s.payloadByte (i + 2)) = some inner →
    exec .pkdec s = .next (State.completed { s with
      c := BitVec.ofNat 1 (s.field 0 1), line := BitVec.ofNat 11 (s.field 1 11)
      hoff := BitVec.ofNat 12 (s.field 12 12), sflag := BitVec.ofNat 1 (s.field 24 1)
      stream := BitVec.ofNat 7 (s.field 25 7), did := 0x41, sdid := 0x07, wc := BitVec.ofNat 8 (s.field 54 8)
      payload := .delegated
        (BitVec.ofNat 16 ((s.payloadByte 0).toNat * 256 + (s.payloadByte 1).toNat)) inner
      cs := BitVec.ofNat 9 (s.field (63 + 10 * s.field 54 8) 9)
      pstate := .decoded, pos := BitVec.ofNat 24 (s.pos.toNat + (72 + 10 * s.field 54 8)) } (72 + 10 * s.field 54 8))

/-- PKDEC of a buffer too short for the header raises TruncatedInput, and FINFO is the width of the read or skip that found
too few bits (R130, R221; 95_test_vectors.md V26). -/
def Obligations.PkdecOfShortHeaderFaults : Prop :=
  ∀ s : State, s.fault = 0 → s.left < 62 →
    exec .pkdec s = .next (s.faulted 1
      (if s.left < 1 then 1 else if s.left < 12 then 11 else if s.left < 24 then 12 else if s.left < 25 then 1
       else if s.left < 32 then 7 else if s.left < 34 then 2 else if s.left < 42 then 8 else if s.left < 44 then 2
       else if s.left < 52 then 8 else if s.left < 54 then 2 else 8))

/-- The faults of PKDEC once the header is there, in the order of the wire (R145, R146, R147, R160, R163, R237). -/
def Obligations.PkdecFaultsInWireOrder : Prop :=
  ∀ s : State, s.fault = 0 → 62 ≤ s.left →
    (¬ (s.field 34 8 = 0x41 ∧ s.field 44 8 = 0x07) →
      (s.left < 62 + 10 * s.field 54 8 → exec .pkdec s = .next (s.faulted 1 (10 * s.field 54 8))) ∧
      (62 + 10 * s.field 54 8 ≤ s.left → s.left < 72 + 10 * s.field 54 8 →
        exec .pkdec s = .next (s.faulted 1 (if s.left = 62 + 10 * s.field 54 8 then 1 else 9)))) ∧
    (s.field 34 8 = 0x41 → s.field 44 8 = 0x07 →
      (s.left < 62 + 10 * s.field 54 8 →
        exec .pkdec s = .next (s.faulted 1 (if (s.left - 62) % 10 < 2 then 2 else 8))) ∧
      (62 + 10 * s.field 54 8 ≤ s.left → s.field 54 8 < 2 →
        exec .pkdec s = .next (s.faulted 6 (s.field 54 8))) ∧
      (62 + 10 * s.field 54 8 ≤ s.left → 2 ≤ s.field 54 8 →
        pcDecode s.params ((List.range (s.field 54 8 - 2)).map fun i => s.payloadByte (i + 2)) = none →
        exec .pkdec s = .next (s.faulted 7 0)) ∧
      (62 + 10 * s.field 54 8 ≤ s.left → s.left < 72 + 10 * s.field 54 8 → 2 ≤ s.field 54 8 →
        (∃ inner, pcDecode s.params ((List.range (s.field 54 8 - 2)).map fun i => s.payloadByte (i + 2)) = some inner) →
        exec .pkdec s = .next (s.faulted 1 (if s.left = 62 + 10 * s.field 54 8 then 1 else 9))))

/-- What PKDEC leaves unchanged: LEN, OUT, OLEN and BUF always, and everything but FAULT, FINFO and the response where it
does not complete. -/
def Obligations.PkdecFrame : Prop :=
  ∀ s t : State, exec .pkdec s = .next t →
    t = { s with
      c := t.c, line := t.line, hoff := t.hoff, sflag := t.sflag, stream := t.stream, did := t.did, sdid := t.sdid
      wc := t.wc, cs := t.cs, payload := t.payload, pstate := t.pstate, pos := t.pos
      fault := t.fault, finfo := t.finfo, resp := t.resp } ∧
    (∀ a, t.bufBit a = s.bufBit a) ∧ (∀ a, t.out.get? a = s.out.get? a) ∧
    (t.fault ≠ 0 → t = { s with fault := t.fault, finfo := t.finfo, resp := t.resp })

/-- At the completion of PKDEC the packet meets the source's invariants (R28 (a), (b); R161): UTAG = 1 exactly for 0x41 with
0x07, a raw value fits its word count, and POS has advanced by 72 + 10·WC, which is the response. -/
def Obligations.CompletedDecodeMeetsThePacketInvariants : Prop :=
  ∀ s t : State, exec .pkdec s = .next t → s.fault = 0 → t.fault = 0 →
    (t.utag = 1 ↔ (t.did = 0x41 ∧ t.sdid = 0x07)) ∧
    (∀ uval, t.payload = .raw uval → uval.toNat < 2 ^ (10 * t.wc.toNat)) ∧
    t.pos.toNat = s.pos.toNat + (72 + 10 * t.wc.toNat) ∧ t.resp = some ⟨0, BitVec.ofNat 64 (72 + 10 * t.wc.toNat)⟩

/-- PKDEC never looks at the bits R78 lists (the protection bits, the inverse-parity bit, whatever follows the trailer):
two buffers that agree on the other bits of the packet decode alike. -/
def Obligations.PkdecIgnoresUncheckedBits : Prop :=
  ∀ (s t : State) (b : BitMem),
    (∀ off, isKeptBit (s.field 34 8 = 0x41 ∧ s.field 44 8 = 0x07) (s.field 54 8) off = true →
      ({ s with buf := b } : State).bufBit (s.pos.toNat + off) = s.bufBit (s.pos.toNat + off)) →
    exec .pkdec s = .next t → exec .pkdec { s with buf := b } = .next { t with buf := b }

/-! ### PKENC (43_payloadresolver.md, 44_packet.md) -/

/-- PKENC on the raw path (R70, R149, R165, R170): the output bit by bit, and every register written. -/
def Obligations.PkencRawCompletes : Prop :=
  ∀ (s : State) (uval : BitVec 2550), s.fault = 0 → s.pstate ≠ .empty → s.payload = .raw uval →
    uval.toNat < 2 ^ (10 * s.wc.toNat) →
    ∃ bits : Bits,
      bits = bitsOf 1 s.c.toNat ++ bitsOf 11 0x7FF ++ bitsOf 12 0xFFF ++ bitsOf 1 s.sflag.toNat
        ++ bitsOf 7 s.stream.toNat ++ bitsOf 10 (encodeByte s.did).toNat ++ bitsOf 10 (encodeByte s.sdid).toNat
        ++ bitsOf 10 (encodeByte s.wc).toNat ++ bitsOf (10 * s.wc.toNat) uval.toNat
        ++ [!s.cs.getLsbD 8] ++ bitsOf 9 s.cs.toNat ++ List.replicate (32 - (10 * s.wc.toNat + 8) % 32) false ∧
      exec .pkenc s = .next (State.completed { s with
        line := 0x7FF, hoff := 0xFFF, pstate := .encoded, out := BitMem.ofBits 0 bits
        olen := BitVec.ofNat 13 bits.length } bits.length) ∧
      bits.length = 72 + 10 * s.wc.toNat + (32 - (10 * s.wc.toNat + 8) % 32)

/-- PKENC on the delegated path (R148, R150, R170), where the PayloadCodec answers: every byte is emitted while the header
and the padding use half their number. The PayloadCodec is a parameter: this holds for every answer it gives. -/
def Obligations.PkencDelegatedCompletes : Prop :=
  ∀ (s : State) (desc : BitVec 16) (inner : Inner) (ser : List Byte), s.fault = 0 → s.pstate ≠ .empty →
    s.payload = .delegated desc inner → pcEncode s.params inner = some ser → (2 + ser.length) / 2 ≤ 255 →
    ∃ bits : Bits,
      bits = bitsOf 1 s.c.toNat ++ bitsOf 11 0x7FF ++ bitsOf 12 0xFFF ++ bitsOf 1 s.sflag.toNat
        ++ bitsOf 7 s.stream.toNat ++ bitsOf 10 (encodeByte s.did).toNat ++ bitsOf 10 (encodeByte s.sdid).toNat
        ++ bitsOf 10 (encodeByte (BitVec.ofNat 8 ((2 + ser.length) / 2))).toNat
        ++ ((desc.extractLsb' 8 8 :: desc.extractLsb' 0 8 :: ser).flatMap fun b => bitsOf 10 (encodeByte b).toNat)
        ++ [!s.cs.getLsbD 8] ++ bitsOf 9 s.cs.toNat
        ++ List.replicate (32 - (10 * ((2 + ser.length) / 2) + 8) % 32) false ∧
      exec .pkenc s = .next (State.completed { s with
        line := 0x7FF, hoff := 0xFFF, wc := BitVec.ofNat 8 ((2 + ser.length) / 2), pstate := .encoded
        out := BitMem.ofBits 0 bits, olen := BitVec.ofNat 13 bits.length } bits.length) ∧
      bits.length = 72 + 10 * (2 + ser.length) + (32 - (10 * ((2 + ser.length) / 2) + 8) % 32)

/-- The faults of PKENC, in their order (R149, R151, R170, R237). -/
def Obligations.PkencFaults : Prop :=
  ∀ s : State, s.fault = 0 →
    (s.pstate = .empty → exec .pkenc s = .next (s.faulted 5 0)) ∧
    (s.pstate ≠ .empty → ∀ uval, s.payload = .raw uval → 2 ^ (10 * s.wc.toNat) ≤ uval.toNat →
      exec .pkenc s = .next (s.faulted 2 s.wc.toNat)) ∧
    (s.pstate ≠ .empty → ∀ desc inner, s.payload = .delegated desc inner → pcEncode s.params inner = none →
      exec .pkenc s = .next (s.faulted 7 1)) ∧
    (s.pstate ≠ .empty → ∀ desc inner ser, s.payload = .delegated desc inner → pcEncode s.params inner = some ser →
      255 < (2 + ser.length) / 2 → exec .pkenc s = .next (s.faulted 8 (min (2 + ser.length) (2 ^ 24 - 1))))

/-- What PKENC leaves unchanged: every register but LINE, HOFF, WC, PSTATE, OLEN and what a fault and the response write,
and WC too on the raw path; every bit of BUF. It stores to OUT from address 0: after it completes the cells below
OLEN hold a value and no other does (10_state.md R31); where it faults every cell of OUT reads as before. -/
def Obligations.PkencFrame : Prop :=
  ∀ s t : State, exec .pkenc s = .next t →
    t = { s with
      line := t.line, hoff := t.hoff, wc := t.wc, pstate := t.pstate, out := t.out, olen := t.olen
      fault := t.fault, finfo := t.finfo, resp := t.resp } ∧
    (s.utag = 0 → t.wc = s.wc) ∧
    (∀ a, t.bufBit a = s.bufBit a) ∧
    (t.fault = 0 → ∀ a, (t.out.get? a).isSome = decide (a < t.olen.toNat)) ∧
    (t.fault ≠ 0 → ∀ a, t.out.get? a = s.out.get? a)

/-- The output's length (R169, R171): at most 5184; on the raw path 72 + 10·WC + padLen(WC), a multiple of 32; on the
delegated path 72 + 10·n + padLen(n div 2) for the n payload bytes, 2 to 511. -/
def Obligations.OutputLength : Prop :=
  ∀ s t : State, exec .pkenc s = .next t → s.fault = 0 → t.fault = 0 →
    t.olen.toNat ≤ 5184 ∧ t.resp = some ⟨0, BitVec.ofNat 64 t.olen.toNat⟩ ∧
    (s.utag = 0 → t.olen.toNat = 72 + 10 * s.wc.toNat + padLen s.wc.toNat ∧ t.olen.toNat % 32 = 0) ∧
    (s.utag ≠ 0 → ∃ n, 2 ≤ n ∧ n ≤ 511 ∧ t.wc.toNat = n / 2 ∧ t.olen.toNat = 72 + 10 * n + padLen (n / 2))

/-- A second PKENC with nothing between changes nothing (R173): not OUT, not OLEN, not a register, not the response. -/
def Obligations.PkencIsIdempotent : Prop :=
  ∀ s t : State, exec .pkenc s = .next t → s.fault = 0 → t.fault = 0 → exec .pkenc t = .next t

/-- The round trip of a raw-path packet (R172 (a)): a packet PKDEC has left, encoded by PKENC, copied by the host from OUT
to BUF, decoded again: C, S, STREAM, DID, SDID, WC, UVAL, CS and UTAG come back, LINE and HOFF are the sentinels, POS is
past the trailer, and the bits that remain are zero. The buffer must have room for the output. -/
def Obligations.RawPacketRoundTrip : Prop :=
  ∀ s0 s : State, exec .pkdec s0 = .next s → s0.fault = 0 → s.fault = 0 → s.utag = 0 →
    72 + 10 * s.wc.toNat + padLen s.wc.toNat ≤ s.params.bufBits.toNat →
    ∃ t t1 t2 u, exec .pkenc s = .next t ∧ hostAct .copyOut t = .next t1 ∧
      exec (.cinit t.olen.toNat) t1 = .next t2 ∧ exec .pkdec t2 = .next u ∧ u.fault = 0 ∧
      u.c = s.c ∧ u.sflag = s.sflag ∧ u.stream = s.stream ∧ u.did = s.did ∧ u.sdid = s.sdid ∧ u.wc = s.wc ∧
      u.payload = s.payload ∧ u.cs = s.cs ∧ u.line = 0x7FF ∧ u.hoff = 0xFFF ∧
      u.pos.toNat = 72 + 10 * s.wc.toNat ∧ u.len.toNat = 72 + 10 * s.wc.toNat + padLen s.wc.toNat ∧
      ∀ a, u.pos.toNat ≤ a → a < u.len.toNat → u.bufBit a = false

/-- A delegated packet does not survive the round trip (R150, R172 (b)): with `n` payload bytes of which the descriptor and
at least two more, the second decode reads `n div 2` of them, takes its CS from the wire word of payload byte
`n div 2`, and hands the PayloadCodec the shortened list; C, S, STREAM, DID, SDID and DESC come back. The PayloadCodec
is a parameter: this holds for every answer it gives to the shortened list. -/
def Obligations.DelegatedPacketRoundTrip : Prop :=
  ∀ (s : State) (desc : BitVec 16) (inner inner' : Inner) (ser : List Byte), s.fault = 0 → s.pstate ≠ .empty →
    s.did = 0x41 → s.sdid = 0x07 → s.payload = .delegated desc inner → pcEncode s.params inner = some ser →
    2 ≤ ser.length → (2 + ser.length) / 2 ≤ 255 →
    pcDecode s.params (ser.take ((2 + ser.length) / 2 - 2)) = some inner' →
    72 + 10 * (2 + ser.length) + padLen ((2 + ser.length) / 2) ≤ s.params.bufBits.toNat →
    ∃ t t1 t2 u, exec .pkenc s = .next t ∧ hostAct .copyOut t = .next t1 ∧
      exec (.cinit t.olen.toNat) t1 = .next t2 ∧ exec .pkdec t2 = .next u ∧ u.fault = 0 ∧
      u.c = s.c ∧ u.sflag = s.sflag ∧ u.stream = s.stream ∧ u.did = s.did ∧ u.sdid = s.sdid ∧
      u.wc.toNat = (2 + ser.length) / 2 ∧ u.payload = .delegated desc inner' ∧ u.line = 0x7FF ∧ u.hoff = 0xFFF ∧
      u.cs = (encodeByte (ser.getD ((2 + ser.length) / 2 - 2) 0)).extractLsb' 0 9

/-- A delegated packet of two or three payload bytes does not come back at all (R172 (b)): the second decode finds a word
count of 1, no room for the descriptor, and faults. -/
def Obligations.ShortDelegatedPacketIsNotDecodedAgain : Prop :=
  ∀ (s : State) (desc : BitVec 16) (inner : Inner) (ser : List Byte), s.fault = 0 → s.pstate ≠ .empty →
    s.did = 0x41 → s.sdid = 0x07 → s.payload = .delegated desc inner → pcEncode s.params inner = some ser →
    ser.length ≤ 1 → 72 + 10 * (2 + ser.length) + padLen 1 ≤ s.params.bufBits.toNat →
    ∃ t t1 t2, exec .pkenc s = .next t ∧ hostAct .copyOut t = .next t1 ∧
      exec (.cinit t.olen.toNat) t1 = .next t2 ∧ exec .pkdec t2 = .next (t2.faulted 6 1)

/-! ### The system commands (45_system.md) -/

/-- RDREG completes (R34, R182): each register's value, a packet register when a packet is materialised, DESC on the
delegated path, and a status register in the Faulted condition too (R180). -/
def Obligations.RdregReadsTheRegister : Prop :=
  (∀ s : State, s.fault = 0 → s.pstate ≠ .empty →
    exec (.rdreg 0x00) s = .next (s.completed s.c.toNat) ∧ exec (.rdreg 0x01) s = .next (s.completed s.line.toNat) ∧
    exec (.rdreg 0x02) s = .next (s.completed s.hoff.toNat) ∧ exec (.rdreg 0x03) s = .next (s.completed s.sflag.toNat) ∧
    exec (.rdreg 0x04) s = .next (s.completed s.stream.toNat) ∧ exec (.rdreg 0x05) s = .next (s.completed s.did.toNat) ∧
    exec (.rdreg 0x06) s = .next (s.completed s.sdid.toNat) ∧ exec (.rdreg 0x07) s = .next (s.completed s.wc.toNat) ∧
    exec (.rdreg 0x08) s = .next (s.completed s.cs.toNat) ∧
    (∀ uval, s.payload = .raw uval → exec (.rdreg 0x09) s = .next (s.completed 0)) ∧
    (∀ desc inner, s.payload = .delegated desc inner → exec (.rdreg 0x09) s = .next (s.completed 1) ∧
      exec (.rdreg 0x0A) s = .next (s.completed desc.toNat))) ∧
  (∀ s : State,
    exec (.rdreg 0x10) s =
      .next (s.completed (if s.pstate = .empty then 0 else if s.pstate = .decoded then 1 else 2)) ∧
    exec (.rdreg 0x11) s = .next (s.completed s.pos.toNat) ∧ exec (.rdreg 0x12) s = .next (s.completed s.len.toNat) ∧
    exec (.rdreg 0x13) s = .next (s.completed s.olen.toNat) ∧
    exec (.rdreg 0x14) s = .next (s.completed s.fault.toNat) ∧
    exec (.rdreg 0x15) s = .next (s.completed s.finfo.toNat))

/-- The faults of RDREG and WRREG, in the order of R181: the address, the packet, the payload kind, the value. FINFO is the
register address. -/
def Obligations.RegisterOperandChecks : Prop :=
  ∀ (s : State) (r : BitVec 8) (v : BitVec 16), s.fault = 0 →
    ((0x0B ≤ r.toNat ∧ r.toNat ≤ 0x0F) ∨ 0x16 ≤ r.toNat →
      exec (.rdreg r) s = .next (s.faulted 4 r.toNat) ∧ exec (.wrreg r v) s = .next (s.faulted 4 r.toNat)) ∧
    (r = 0x09 ∨ (0x10 ≤ r.toNat ∧ r.toNat ≤ 0x15) → exec (.wrreg r v) s = .next (s.faulted 4 r.toNat)) ∧
    (r.toNat ≤ 0x0A → s.pstate = .empty → exec (.rdreg r) s = .next (s.faulted 5 r.toNat) ∧
      (r ≠ 0x09 → exec (.wrreg r v) s = .next (s.faulted 5 r.toNat))) ∧
    (r = 0x0A → s.pstate ≠ .empty → s.utag = 0 →
      exec (.rdreg r) s = .next (s.faulted 4 r.toNat) ∧ exec (.wrreg r v) s = .next (s.faulted 4 r.toNat)) ∧
    (r.toNat ≤ 0x08 → s.pstate ≠ .empty → 2 ^ ([1, 11, 12, 1, 7, 8, 8, 8, 9].getD r.toNat 0) ≤ v.toNat →
      exec (.wrreg r v) s = .next (s.faulted 4 r.toNat))

/-- WRREG writes one register and nothing else (R183), for every value that fits its width. -/
def Obligations.WrregWritesTheRegister : Prop :=
  ∀ (s : State) (v : BitVec 16), s.fault = 0 → s.pstate ≠ .empty →
    (v.toNat < 2 ^ 1 → exec (.wrreg 0x00 v) s = .next (State.completed { s with c := v.setWidth 1 } 0)) ∧
    (v.toNat < 2 ^ 11 → exec (.wrreg 0x01 v) s = .next (State.completed { s with line := v.setWidth 11 } 0)) ∧
    (v.toNat < 2 ^ 12 → exec (.wrreg 0x02 v) s = .next (State.completed { s with hoff := v.setWidth 12 } 0)) ∧
    (v.toNat < 2 ^ 1 → exec (.wrreg 0x03 v) s = .next (State.completed { s with sflag := v.setWidth 1 } 0)) ∧
    (v.toNat < 2 ^ 7 → exec (.wrreg 0x04 v) s = .next (State.completed { s with stream := v.setWidth 7 } 0)) ∧
    (v.toNat < 2 ^ 8 → exec (.wrreg 0x05 v) s = .next (State.completed { s with did := v.setWidth 8 } 0)) ∧
    (v.toNat < 2 ^ 8 → exec (.wrreg 0x06 v) s = .next (State.completed { s with sdid := v.setWidth 8 } 0)) ∧
    (v.toNat < 2 ^ 8 → exec (.wrreg 0x07 v) s = .next (State.completed { s with wc := v.setWidth 8 } 0)) ∧
    (v.toNat < 2 ^ 9 → exec (.wrreg 0x08 v) s = .next (State.completed { s with cs := v.setWidth 9 } 0)) ∧
    (∀ desc inner, s.payload = .delegated desc inner →
      exec (.wrreg 0x0A v) s = .next (State.completed { s with payload := .delegated v inner } 0))

/-- What WRREG leaves unchanged, whether it completes or faults: every register but the one addressed and what a fault and
the response write; UVAL, INNER and UTAG always. It stores to neither BUF nor OUT. -/
def Obligations.WrregFrame : Prop :=
  ∀ (r : BitVec 8) (v : BitVec 16) (s t : State), exec (.wrreg r v) s = .next t →
    (r ≠ 0x00 → t.c = s.c) ∧ (r ≠ 0x01 → t.line = s.line) ∧ (r ≠ 0x02 → t.hoff = s.hoff) ∧
    (r ≠ 0x03 → t.sflag = s.sflag) ∧ (r ≠ 0x04 → t.stream = s.stream) ∧ (r ≠ 0x05 → t.did = s.did) ∧
    (r ≠ 0x06 → t.sdid = s.sdid) ∧ (r ≠ 0x07 → t.wc = s.wc) ∧ (r ≠ 0x08 → t.cs = s.cs) ∧
    (r ≠ 0x0A → t.payload = s.payload) ∧ (∀ uval, s.payload = .raw uval → t.payload = .raw uval) ∧
    (∀ desc inner, s.payload = .delegated desc inner → ∃ desc', t.payload = .delegated desc' inner) ∧
    t.pstate = s.pstate ∧ t.len = s.len ∧ t.pos = s.pos ∧ t.olen = s.olen ∧ t.params = s.params ∧ t.host = s.host ∧
    t.resets = s.resets ∧ (∀ a, t.bufBit a = s.bufBit a) ∧ (∀ a, t.out.get? a = s.out.get? a)

/-- RDU and WRU (R25, R184, R185): a digit of UVAL read, or replaced and nothing else; the index is tested first, then the
packet, then the payload kind. -/
def Obligations.RduAndWruComplete : Prop :=
  (∀ k, encode (.rdu k) = 0x0C#8 ++ (0#6 ++ BitVec.ofNat 8 k ++ 0#10)) ∧
  (∀ k d, encode (.wru k d) = 0x0D#8 ++ (0#6 ++ BitVec.ofNat 8 k ++ d)) ∧
  ∀ (k : Nat) (d : BitVec 10) (s : State), s.fault = 0 →
    (254 < k → exec (.rdu k) s = .next (s.faulted 4 k) ∧ exec (.wru k d) s = .next (s.faulted 4 k)) ∧
    (k ≤ 254 → s.pstate = .empty →
      exec (.rdu k) s = .next (s.faulted 5 k) ∧ exec (.wru k d) s = .next (s.faulted 5 k)) ∧
    (k ≤ 254 → s.pstate ≠ .empty → s.utag = 1 →
      exec (.rdu k) s = .next (s.faulted 4 k) ∧ exec (.wru k d) s = .next (s.faulted 4 k)) ∧
    (k ≤ 254 → s.pstate ≠ .empty → ∀ uval, s.payload = .raw uval →
      exec (.rdu k) s = .next (s.completed ((uval.toNat / 2 ^ (10 * k)) % 1024)) ∧
      ∃ x : BitVec 2550, exec (.wru k d) s = .next (State.completed { s with payload := .raw x } 0) ∧
        ∀ i, i < 2550 → x.getLsbD i = if 10 * k ≤ i ∧ i < 10 * k + 10 then d.getLsbD (i - 10 * k) else uval.getLsbD i)

/-- What WRU leaves unchanged, whether it completes or faults: everything but UVAL and what a fault and the response
write, a delegated payload too. It stores to neither BUF nor OUT. -/
def Obligations.WruFrame : Prop :=
  ∀ (k : Nat) (d : BitVec 10) (s t : State), exec (.wru k d) s = .next t →
    t = { s with payload := t.payload, fault := t.fault, finfo := t.finfo, resp := t.resp } ∧
    (∀ desc inner, s.payload = .delegated desc inner → t.payload = s.payload) ∧ t.utag = s.utag ∧
    (∀ a, t.bufBit a = s.bufBit a) ∧ (∀ a, t.out.get? a = s.out.get? a)

/-! ### The software side (46_views_and_lookup.md) -/

/-- The description lookup (R202), for every table, and the four cases of the source's example (R203). -/
def Obligations.DescriptionLookup : Prop :=
  (∀ (t : DescTable) (did sdid : Byte),
    (t.lookup did = none → packetInfo t did sdid = "") ∧
    (∀ text, t.lookup did = some (.description text) → packetInfo t did sdid = text) ∧
    (∀ m, t.lookup did = some (.bySdid m) → packetInfo t did sdid = (m.lookup sdid).getD "")) ∧
  (let t : DescTable := [(0x41, .bySdid [(0x07, "SCTE-104")]), (0x60, .description "Ancillary Time Code")]
   packetInfo t 0x41 0x07 = "SCTE-104" ∧ packetInfo t 0x41 0x99 = "" ∧
    (∀ sdid, packetInfo t 0x60 sdid = "Ancillary Time Code") ∧ packetInfo t 0x99 0x00 = "")
end

