-- ==== Sys2Proof/Laws/Bits.lean ====
section
/-! SUPPORT. What `val` and `bits_n` do (spec/00_scope.md rules R9, R11). -/

-- One theorem at a time: elaborated side by side, the theorems take more threads than the check's memory limit allows.
set_option Elab.async false

namespace Sys2Proof.Machine

theorem foldl_val (l : Bits) (n : Nat) :
    l.foldl (fun acc b => 2 * acc + b.toNat) n = n * 2 ^ l.length + val l := by
  induction l generalizing n with
  | nil => simp [val]
  | cons b l ih =>
    simp only [List.foldl_cons, List.length_cons, val]
    rw [ih, ih (2 * 0 + b.toNat)]
    ring

@[simp] theorem val_nil : val [] = 0 := rfl

theorem val_cons (b : Bool) (l : Bits) : val (b :: l) = b.toNat * 2 ^ l.length + val l := by
  have h := foldl_val l (2 * 0 + b.toNat)
  simpa [val] using h

theorem val_append (l m : Bits) : val (l ++ m) = val l * 2 ^ m.length + val m := by
  induction l with
  | nil => simp
  | cons b l ih => simp only [List.cons_append, val_cons, ih, List.length_append]; ring

theorem val_lt (l : Bits) : val l < 2 ^ l.length := by
  induction l with
  | nil => simp
  | cons b l ih =>
    rw [val_cons, List.length_cons, pow_succ]
    have hb : b.toNat ≤ 1 := Bool.toNat_le b
    nlinarith [Nat.mul_le_mul_right (2 ^ l.length) hb]

@[simp] theorem length_bitsOf (n v : Nat) : (bitsOf n v).length = n := by
  induction n with
  | zero => rfl
  | succ n ih => simp [bitsOf, ih]

@[simp] theorem length_regBits {w : Nat} (v : BitVec w) : (regBits v).length = w := length_bitsOf _ _

@[simp] theorem length_zeros (n : Nat) : (zeros n).length = n := List.length_replicate

/-- `val(bits_n(v)) = v` for `v < 2^n`, and in general the low `n` bits. -/
theorem val_bitsOf (n v : Nat) : val (bitsOf n v) = v % 2 ^ n := by
  induction n with
  | zero => simp [bitsOf, Nat.mod_one]
  | succ n ih =>
    simp only [bitsOf, val_cons, length_bitsOf, ih]
    rw [Nat.testBit_eq_decide_div_mod_eq, pow_succ, Nat.mod_mul]
    rcases Nat.mod_two_eq_zero_or_one (v / 2 ^ n) with h | h <;> simp [h, add_comm]

@[simp] theorem val_regBits {w : Nat} (v : BitVec w) : val (regBits v) = v.toNat := by
  rw [regBits, val_bitsOf, Nat.mod_eq_of_lt v.isLt]

/-- A bit list of known length is `bits_n` of its value. -/
theorem bitsOf_val (l : Bits) : bitsOf l.length (val l) = l := by
  induction l with
  | nil => rfl
  | cons b l ih =>
    have hl := val_lt l
    have h1 : (val (b :: l)).testBit l.length = b := by
      rw [val_cons, Nat.testBit_eq_decide_div_mod_eq,
        show b.toNat * 2 ^ l.length + val l = val l + 2 ^ l.length * b.toNat by ring,
        Nat.add_mul_div_left _ _ (Nat.two_pow_pos _), Nat.div_eq_of_lt hl]
      cases b <;> rfl
    have h2 : bitsOf l.length (val (b :: l)) = bitsOf l.length (val l) := by
      have : ∀ k, k ≤ l.length → bitsOf k (val (b :: l)) = bitsOf k (val l) := by
        intro k hk
        induction k with
        | zero => rfl
        | succ k ihk =>
          simp only [bitsOf, ihk (by omega), List.cons.injEq, and_true]
          rw [val_cons, show b.toNat * 2 ^ l.length + val l = 2 ^ l.length * b.toNat + val l by ring,
            Nat.testBit_two_pow_mul_add _ hl]
          simp [show k < l.length by omega]
      exact this _ le_rfl
    simp only [List.length_cons, bitsOf, h1, h2, ih]

/-- Two bit lists of one length with one value are the same. -/
theorem val_inj {l m : Bits} (hl : l.length = m.length) (h : val l = val m) : l = m := by
  rw [← bitsOf_val l, ← bitsOf_val m, hl, h]

/-- The `i`-th bit in stream order of `bits_n(v)` is `v[n−1−i]` (R9: most significant bit first). -/
theorem getElem_bitsOf (n v i : Nat) (h : i < (bitsOf n v).length) :
    (bitsOf n v)[i] = v.testBit (n - 1 - i) := by
  induction n generalizing i with
  | zero => simp at h
  | succ n ih =>
    cases i with
    | zero => simp [bitsOf]
    | succ i =>
      simp only [bitsOf, List.getElem_cons_succ]
      rw [ih]
      congr 1
      simp at h
      omega

/-- R9: stream bit `i` of a list is bit `len − 1 − i` of its value. -/
theorem testBit_val (l : Bits) (i : Nat) (h : i < l.length) : (val l).testBit (l.length - 1 - i) = l[i] := by
  have h1 := getElem_bitsOf l.length (val l) i (by simpa using h)
  rw [← h1]
  simp [bitsOf_val]

@[simp] theorem val_zeros (n : Nat) : val (zeros n) = 0 := by
  induction n with
  | zero => rfl
  | succ n ih =>
    have : zeros (n + 1) = false :: zeros n := rfl
    rw [this, val_cons, ih]
    simp

/-- One bit list cut in two. -/
theorem bitsOf_add (m n v : Nat) : bitsOf (m + n) v = bitsOf m (v / 2 ^ n) ++ bitsOf n v := by
  induction m with
  | zero => simp [bitsOf]
  | succ m ih =>
    rw [show m + 1 + n = (m + n) + 1 by omega, bitsOf, ih, bitsOf, List.cons_append]
    simp [Nat.testBit_div_two_pow, add_comm]

end Sys2Proof.Machine
end

