-- ==== Sys2Proof/Laws/Memory.lean ====
section
/-! SUPPORT. What the operations on a bit memory do, and that each keeps its canonical form (spec/20_memory.md rules R50, R56,
R57). -/

-- One theorem at a time: elaborated side by side, the theorems take more threads than the check's memory limit allows.
set_option Elab.async false

namespace Sys2Proof.Machine

theorem BitMem.wf_cons {k : Nat} {b : Bool} {m : BitMem} :
    BitMem.wf ((k, b) :: m) = true ↔ (∀ kb ∈ m, k < kb.1) ∧ BitMem.wf m = true := by
  simp [BitMem.wf]

theorem BitMem.wf_nil : BitMem.wf [] = true := rfl

theorem BitMem.get?_eq_none_of_lt {m : BitMem} {a : Nat} (h : ∀ kb ∈ m, a < kb.1) : BitMem.get? m a = none := by
  induction m with
  | nil => rfl
  | cons kb m ih =>
    obtain ⟨k, b⟩ := kb
    have hk : a < k := h (k, b) (by simp)
    rw [BitMem.get?, if_neg (by omega)]
    exact ih fun kb hkb => h kb (by simp [hkb])

/-- A read after a write: the cell written reads as the new bit, every other as before. -/
theorem BitMem.get?_set (m : BitMem) (a x : Nat) (b : Bool) :
    BitMem.get? (BitMem.set m a b) x = if a = x then some b else BitMem.get? m x := by
  induction m with
  | nil => simp [BitMem.set, BitMem.get?]
  | cons kc m ih =>
    obtain ⟨k, c⟩ := kc
    simp only [BitMem.set]
    split
    · simp [BitMem.get?]
    · split
      · rename_i h1 h2
        subst h2
        simp only [BitMem.get?]
        split <;> simp
      · simp only [BitMem.get?, ih]
        split
        · rename_i h1 h2 h3
          subst h3
          rw [if_neg h2]
        · rfl

theorem BitMem.mem_set {m : BitMem} {a : Nat} {b : Bool} {kb : Nat × Bool} (h : kb ∈ BitMem.set m a b) :
    kb = (a, b) ∨ kb ∈ m := by
  induction m with
  | nil => simpa [BitMem.set] using h
  | cons kc m ih =>
    obtain ⟨k, c⟩ := kc
    simp only [BitMem.set] at h
    split at h
    · simpa using h
    · split at h
      · rcases List.mem_cons.mp h with h | h
        · exact .inl h
        · exact .inr (by simp [h])
      · rcases List.mem_cons.mp h with h | h
        · exact .inr (by simp [h])
        · rcases ih h with h | h
          · exact .inl h
          · exact .inr (by simp [h])

theorem BitMem.wf_set {m : BitMem} (a : Nat) (b : Bool) (h : BitMem.wf m = true) :
    BitMem.wf (BitMem.set m a b) = true := by
  induction m with
  | nil => rfl
  | cons kc m ih =>
    obtain ⟨k, c⟩ := kc
    have hk := BitMem.wf_cons.mp h
    simp only [BitMem.set]
    split
    · rename_i hlt
      refine BitMem.wf_cons.mpr ⟨fun kb hkb => ?_, h⟩
      rcases List.mem_cons.mp hkb with h | h
      · rw [h]; exact hlt
      · exact lt_trans hlt (hk.1 kb h)
    · split
      · rename_i h1 h2
        subst h2
        exact BitMem.wf_cons.mpr hk
      · refine BitMem.wf_cons.mpr ⟨fun kb hkb => ?_, ih hk.2⟩
        rcases BitMem.mem_set hkb with h | h
        · rw [h]; show k < a; omega
        · exact hk.1 kb h

/-- Writing consecutive bits: each cell written reads as its new bit, every other as before. -/
theorem BitMem.get?_setBits (m : BitMem) (a x : Nat) (bs : Bits) :
    BitMem.get? (BitMem.setBits m a bs) x =
      if a ≤ x ∧ x < a + bs.length then bs[x - a]? else BitMem.get? m x := by
  induction bs generalizing m a with
  | nil => simp [BitMem.setBits]
  | cons b bs ih =>
    simp only [BitMem.setBits, ih, BitMem.get?_set, List.length_cons]
    by_cases h1 : a + 1 ≤ x ∧ x < a + 1 + bs.length
    · rw [if_pos h1, if_pos (by omega), show x - a = (x - (a + 1)) + 1 by omega, List.getElem?_cons_succ]
    · rw [if_neg h1]
      by_cases h2 : a = x
      · subst h2; simp
      · rw [if_neg h2, if_neg (by omega)]

theorem BitMem.wf_setBits {m : BitMem} (a : Nat) (bs : Bits) (h : BitMem.wf m = true) :
    BitMem.wf (BitMem.setBits m a bs) = true := by
  induction bs generalizing m a with
  | nil => exact h
  | cons b bs ih => exact ih (a + 1) (BitMem.wf_set a b h)

theorem BitMem.mem_setBits {m : BitMem} {a : Nat} {bs : Bits} {kb : Nat × Bool}
    (h : kb ∈ BitMem.setBits m a bs) : (a ≤ kb.1 ∧ kb.1 < a + bs.length) ∨ kb ∈ m := by
  induction bs generalizing m a with
  | nil => exact .inr h
  | cons b bs ih =>
    rcases ih h with h | h
    · left; simp only [List.length_cons]; omega
    · rcases BitMem.mem_set h with h | h
      · left; simp [h]
      · exact .inr h

/-- The cells of a memory made of a bit list. -/
theorem BitMem.get?_ofBits (a x : Nat) (bs : Bits) :
    BitMem.get? (BitMem.ofBits a bs) x = if a ≤ x then bs[x - a]? else none := by
  induction bs generalizing a with
  | nil => simp [BitMem.ofBits, BitMem.get?]
  | cons b bs ih =>
    simp only [BitMem.ofBits, BitMem.get?, ih]
    by_cases h : a = x
    · subst h; simp
    · rw [if_neg h]
      by_cases h1 : a + 1 ≤ x
      · rw [if_pos h1, if_pos (by omega), show x - a = (x - (a + 1)) + 1 by omega, List.getElem?_cons_succ]
      · rw [if_neg h1, if_neg (by omega)]

theorem BitMem.mem_ofBits {a : Nat} {bs : Bits} {kb : Nat × Bool} (h : kb ∈ BitMem.ofBits a bs) : a ≤ kb.1 := by
  induction bs generalizing a with
  | nil => simp [BitMem.ofBits] at h
  | cons b bs ih =>
    rcases List.mem_cons.mp h with h | h
    · simp [h]
    · have := ih h; omega

theorem BitMem.wf_ofBits (a : Nat) (bs : Bits) : BitMem.wf (BitMem.ofBits a bs) = true := by
  induction bs generalizing a with
  | nil => rfl
  | cons b bs ih => exact BitMem.wf_cons.mpr ⟨fun kb hkb => BitMem.mem_ofBits hkb, ih (a + 1)⟩

@[simp] theorem BitMem.map_snd_ofBits (a : Nat) (bs : Bits) : (BitMem.ofBits a bs).map Prod.snd = bs := by
  induction bs generalizing a with
  | nil => rfl
  | cons b bs ih => simp [BitMem.ofBits, ih]

@[simp] theorem BitMem.length_ofBits (a : Nat) (bs : Bits) : (BitMem.ofBits a bs).length = bs.length := by
  rw [← List.length_map (f := Prod.snd), BitMem.map_snd_ofBits]

@[simp] theorem State.length_bufBits (s : State) (a n : Nat) : (s.bufBits a n).length = n := by
  simp [State.bufBits]

@[simp] theorem State.getElem_bufBits (s : State) (a n i : Nat) (h : i < (s.bufBits a n).length) :
    (s.bufBits a n)[i] = s.bufBit (a + i) := by
  simp [State.bufBits]

/-- A run of BUF cut in two. -/
theorem State.bufBits_add (s : State) (a m n : Nat) : s.bufBits a (m + n) = s.bufBits a m ++ s.bufBits (a + m) n := by
  apply List.ext_getElem
  · simp
  · intro i h1 h2
    rw [List.getElem_append]
    split
    · simp
    · rename_i h
      simp at h ⊢
      congr 1
      omega

theorem State.memRead_lt (s : State) (a n : Nat) : s.memRead a n < 2 ^ n := by
  simpa [State.memRead] using val_lt (s.bufBits a n)

/-- What the host reads back of an output just written. -/
theorem State.outBits_writeOut (s : State) (bits : Bits) (h : bits.length < 2 ^ 13) :
    (s.writeOut bits).outBits = bits := by
  have hlen : (BitVec.ofNat 13 bits.length).toNat = bits.length := by
    simpa using Nat.mod_eq_of_lt h
  have hget : ∀ i ∈ List.range bits.length,
      BitMem.get? (BitMem.ofBits 0 bits) i = some (bits.getD i false) := by
    intro i hi
    have hi : i < bits.length := List.mem_range.mp hi
    rw [BitMem.get?_ofBits]
    simp [hi]
  have : (s.writeOut bits).outBits = (List.range bits.length).filterMap fun i =>
      BitMem.get? (BitMem.ofBits 0 bits) i := by
    simp only [State.outBits, State.writeOut, hlen]
  rw [this, List.filterMap_congr hget]
  apply List.ext_getElem
  · simp
  · intro i h1 h2
    simp [h2]

/-- Two memories in canonical form with the same cells are the same data. -/
theorem BitMem.ext_of_wf {m n : BitMem} (hm : m.wf = true) (hn : n.wf = true)
    (h : ∀ a, BitMem.get? m a = BitMem.get? n a) : m = n := by
  induction m generalizing n with
  | nil =>
    cases n with
    | nil => rfl
    | cons kb n =>
      obtain ⟨k, b⟩ := kb
      simpa [BitMem.get?] using h k
  | cons kb m ih =>
    obtain ⟨k, b⟩ := kb
    cases n with
    | nil => simpa [BitMem.get?] using h k
    | cons jc n =>
      obtain ⟨j, c⟩ := jc
      have hm' := BitMem.wf_cons.mp hm
      have hn' := BitMem.wf_cons.mp hn
      have hkj : k = j := by
        rcases Nat.lt_trichotomy k j with hlt | heq | hgt
        · have h1 := h k
          have h2 : BitMem.get? n k = none :=
            BitMem.get?_eq_none_of_lt fun kb hkb => lt_trans hlt (hn'.1 kb hkb)
          simp [BitMem.get?, h2, show j ≠ k by omega] at h1
        · exact heq
        · have h1 := h j
          have h2 : BitMem.get? m j = none :=
            BitMem.get?_eq_none_of_lt fun kb hkb => lt_trans hgt (hm'.1 kb hkb)
          simp [BitMem.get?, h2, show k ≠ j by omega] at h1
      subst hkj
      have hbc : b = c := by simpa [BitMem.get?] using h k
      subst hbc
      congr 1
      refine ih hm'.2 hn'.2 fun a => ?_
      by_cases ha : k = a
      · subst ha
        rw [BitMem.get?_eq_none_of_lt hm'.1, BitMem.get?_eq_none_of_lt hn'.1]
      · simpa [BitMem.get?, ha] using h a

/-- The memories of the reset state are in canonical form. -/
theorem State.reset_mem_wf : State.reset.buf.wf = true ∧ State.reset.out.wf = true := ⟨rfl, rfl⟩

end Sys2Proof.Machine
end

