-- ==== Sys2Proof/Laws/State.lean ====
section
/-! SUPPORT. One lemma per field per update of State, each true by rfl. -/

-- One theorem at a time: elaborated side by side, the theorems take more threads than the check's memory limit allows.
set_option Elab.async false

namespace Sys2Proof.Machine

/-! ### `respond` -/

@[simp] theorem State.respond_c (s : State) (k : BitVec 4) (d : Nat) : (s.respond k d).c = s.c := rfl
@[simp] theorem State.respond_line (s : State) (k : BitVec 4) (d : Nat) : (s.respond k d).line = s.line := rfl
@[simp] theorem State.respond_hoff (s : State) (k : BitVec 4) (d : Nat) : (s.respond k d).hoff = s.hoff := rfl
@[simp] theorem State.respond_sflag (s : State) (k : BitVec 4) (d : Nat) : (s.respond k d).sflag = s.sflag := rfl
@[simp] theorem State.respond_stream (s : State) (k : BitVec 4) (d : Nat) : (s.respond k d).stream = s.stream := rfl
@[simp] theorem State.respond_did (s : State) (k : BitVec 4) (d : Nat) : (s.respond k d).did = s.did := rfl
@[simp] theorem State.respond_sdid (s : State) (k : BitVec 4) (d : Nat) : (s.respond k d).sdid = s.sdid := rfl
@[simp] theorem State.respond_wc (s : State) (k : BitVec 4) (d : Nat) : (s.respond k d).wc = s.wc := rfl
@[simp] theorem State.respond_cs (s : State) (k : BitVec 4) (d : Nat) : (s.respond k d).cs = s.cs := rfl
@[simp] theorem State.respond_payload (s : State) (k : BitVec 4) (d : Nat) : (s.respond k d).payload = s.payload := rfl
@[simp] theorem State.respond_pstate (s : State) (k : BitVec 4) (d : Nat) : (s.respond k d).pstate = s.pstate := rfl
@[simp] theorem State.respond_buf (s : State) (k : BitVec 4) (d : Nat) : (s.respond k d).buf = s.buf := rfl
@[simp] theorem State.respond_len (s : State) (k : BitVec 4) (d : Nat) : (s.respond k d).len = s.len := rfl
@[simp] theorem State.respond_pos (s : State) (k : BitVec 4) (d : Nat) : (s.respond k d).pos = s.pos := rfl
@[simp] theorem State.respond_out (s : State) (k : BitVec 4) (d : Nat) : (s.respond k d).out = s.out := rfl
@[simp] theorem State.respond_olen (s : State) (k : BitVec 4) (d : Nat) : (s.respond k d).olen = s.olen := rfl
@[simp] theorem State.respond_fault (s : State) (k : BitVec 4) (d : Nat) : (s.respond k d).fault = s.fault := rfl
@[simp] theorem State.respond_finfo (s : State) (k : BitVec 4) (d : Nat) : (s.respond k d).finfo = s.finfo := rfl
@[simp] theorem State.respond_params (s : State) (k : BitVec 4) (d : Nat) : (s.respond k d).params = s.params := rfl
@[simp] theorem State.respond_resp (s : State) (k : BitVec 4) (d : Nat) : (s.respond k d).resp = some ⟨k, BitVec.ofNat 64 d⟩ := rfl
@[simp] theorem State.respond_host (s : State) (k : BitVec 4) (d : Nat) : (s.respond k d).host = s.host := rfl
@[simp] theorem State.respond_resets (s : State) (k : BitVec 4) (d : Nat) : (s.respond k d).resets = s.resets := rfl

/-! ### `raise` -/

@[simp] theorem State.raise_c (s : State) (r : Raised) : (s.raise r).c = s.c := rfl
@[simp] theorem State.raise_line (s : State) (r : Raised) : (s.raise r).line = s.line := rfl
@[simp] theorem State.raise_hoff (s : State) (r : Raised) : (s.raise r).hoff = s.hoff := rfl
@[simp] theorem State.raise_sflag (s : State) (r : Raised) : (s.raise r).sflag = s.sflag := rfl
@[simp] theorem State.raise_stream (s : State) (r : Raised) : (s.raise r).stream = s.stream := rfl
@[simp] theorem State.raise_did (s : State) (r : Raised) : (s.raise r).did = s.did := rfl
@[simp] theorem State.raise_sdid (s : State) (r : Raised) : (s.raise r).sdid = s.sdid := rfl
@[simp] theorem State.raise_wc (s : State) (r : Raised) : (s.raise r).wc = s.wc := rfl
@[simp] theorem State.raise_cs (s : State) (r : Raised) : (s.raise r).cs = s.cs := rfl
@[simp] theorem State.raise_payload (s : State) (r : Raised) : (s.raise r).payload = s.payload := rfl
@[simp] theorem State.raise_pstate (s : State) (r : Raised) : (s.raise r).pstate = s.pstate := rfl
@[simp] theorem State.raise_buf (s : State) (r : Raised) : (s.raise r).buf = s.buf := rfl
@[simp] theorem State.raise_len (s : State) (r : Raised) : (s.raise r).len = s.len := rfl
@[simp] theorem State.raise_pos (s : State) (r : Raised) : (s.raise r).pos = s.pos := rfl
@[simp] theorem State.raise_out (s : State) (r : Raised) : (s.raise r).out = s.out := rfl
@[simp] theorem State.raise_olen (s : State) (r : Raised) : (s.raise r).olen = s.olen := rfl
@[simp] theorem State.raise_fault (s : State) (r : Raised) : (s.raise r).fault = r.cause.code := rfl
@[simp] theorem State.raise_finfo (s : State) (r : Raised) : (s.raise r).finfo = BitVec.ofNat 24 r.info := rfl
@[simp] theorem State.raise_params (s : State) (r : Raised) : (s.raise r).params = s.params := rfl
@[simp] theorem State.raise_resp (s : State) (r : Raised) : (s.raise r).resp = some ⟨r.cause.code, BitVec.ofNat 64 0⟩ := rfl
@[simp] theorem State.raise_host (s : State) (r : Raised) : (s.raise r).host = s.host := rfl
@[simp] theorem State.raise_resets (s : State) (r : Raised) : (s.raise r).resets = s.resets := rfl

/-! ### `turnAway` -/

@[simp] theorem State.turnAway_c (s : State) : (s.turnAway).c = s.c := rfl
@[simp] theorem State.turnAway_line (s : State) : (s.turnAway).line = s.line := rfl
@[simp] theorem State.turnAway_hoff (s : State) : (s.turnAway).hoff = s.hoff := rfl
@[simp] theorem State.turnAway_sflag (s : State) : (s.turnAway).sflag = s.sflag := rfl
@[simp] theorem State.turnAway_stream (s : State) : (s.turnAway).stream = s.stream := rfl
@[simp] theorem State.turnAway_did (s : State) : (s.turnAway).did = s.did := rfl
@[simp] theorem State.turnAway_sdid (s : State) : (s.turnAway).sdid = s.sdid := rfl
@[simp] theorem State.turnAway_wc (s : State) : (s.turnAway).wc = s.wc := rfl
@[simp] theorem State.turnAway_cs (s : State) : (s.turnAway).cs = s.cs := rfl
@[simp] theorem State.turnAway_payload (s : State) : (s.turnAway).payload = s.payload := rfl
@[simp] theorem State.turnAway_pstate (s : State) : (s.turnAway).pstate = s.pstate := rfl
@[simp] theorem State.turnAway_buf (s : State) : (s.turnAway).buf = s.buf := rfl
@[simp] theorem State.turnAway_len (s : State) : (s.turnAway).len = s.len := rfl
@[simp] theorem State.turnAway_pos (s : State) : (s.turnAway).pos = s.pos := rfl
@[simp] theorem State.turnAway_out (s : State) : (s.turnAway).out = s.out := rfl
@[simp] theorem State.turnAway_olen (s : State) : (s.turnAway).olen = s.olen := rfl
@[simp] theorem State.turnAway_fault (s : State) : (s.turnAway).fault = s.fault := rfl
@[simp] theorem State.turnAway_finfo (s : State) : (s.turnAway).finfo = s.finfo := rfl
@[simp] theorem State.turnAway_params (s : State) : (s.turnAway).params = s.params := rfl
@[simp] theorem State.turnAway_resp (s : State) : (s.turnAway).resp = some ⟨s.fault, BitVec.ofNat 64 0⟩ := rfl
@[simp] theorem State.turnAway_host (s : State) : (s.turnAway).host = s.host := rfl
@[simp] theorem State.turnAway_resets (s : State) : (s.turnAway).resets = s.resets := rfl

/-! ### `setPos` -/

@[simp] theorem State.setPos_c (s : State) (p : Nat) : (s.setPos p).c = s.c := rfl
@[simp] theorem State.setPos_line (s : State) (p : Nat) : (s.setPos p).line = s.line := rfl
@[simp] theorem State.setPos_hoff (s : State) (p : Nat) : (s.setPos p).hoff = s.hoff := rfl
@[simp] theorem State.setPos_sflag (s : State) (p : Nat) : (s.setPos p).sflag = s.sflag := rfl
@[simp] theorem State.setPos_stream (s : State) (p : Nat) : (s.setPos p).stream = s.stream := rfl
@[simp] theorem State.setPos_did (s : State) (p : Nat) : (s.setPos p).did = s.did := rfl
@[simp] theorem State.setPos_sdid (s : State) (p : Nat) : (s.setPos p).sdid = s.sdid := rfl
@[simp] theorem State.setPos_wc (s : State) (p : Nat) : (s.setPos p).wc = s.wc := rfl
@[simp] theorem State.setPos_cs (s : State) (p : Nat) : (s.setPos p).cs = s.cs := rfl
@[simp] theorem State.setPos_payload (s : State) (p : Nat) : (s.setPos p).payload = s.payload := rfl
@[simp] theorem State.setPos_pstate (s : State) (p : Nat) : (s.setPos p).pstate = s.pstate := rfl
@[simp] theorem State.setPos_buf (s : State) (p : Nat) : (s.setPos p).buf = s.buf := rfl
@[simp] theorem State.setPos_len (s : State) (p : Nat) : (s.setPos p).len = s.len := rfl
@[simp] theorem State.setPos_pos (s : State) (p : Nat) : (s.setPos p).pos = BitVec.ofNat 24 p := rfl
@[simp] theorem State.setPos_out (s : State) (p : Nat) : (s.setPos p).out = s.out := rfl
@[simp] theorem State.setPos_olen (s : State) (p : Nat) : (s.setPos p).olen = s.olen := rfl
@[simp] theorem State.setPos_fault (s : State) (p : Nat) : (s.setPos p).fault = s.fault := rfl
@[simp] theorem State.setPos_finfo (s : State) (p : Nat) : (s.setPos p).finfo = s.finfo := rfl
@[simp] theorem State.setPos_params (s : State) (p : Nat) : (s.setPos p).params = s.params := rfl
@[simp] theorem State.setPos_resp (s : State) (p : Nat) : (s.setPos p).resp = s.resp := rfl
@[simp] theorem State.setPos_host (s : State) (p : Nat) : (s.setPos p).host = s.host := rfl
@[simp] theorem State.setPos_resets (s : State) (p : Nat) : (s.setPos p).resets = s.resets := rfl

/-! ### `writeOut` -/

@[simp] theorem State.writeOut_c (s : State) (b : Bits) : (s.writeOut b).c = s.c := rfl
@[simp] theorem State.writeOut_line (s : State) (b : Bits) : (s.writeOut b).line = s.line := rfl
@[simp] theorem State.writeOut_hoff (s : State) (b : Bits) : (s.writeOut b).hoff = s.hoff := rfl
@[simp] theorem State.writeOut_sflag (s : State) (b : Bits) : (s.writeOut b).sflag = s.sflag := rfl
@[simp] theorem State.writeOut_stream (s : State) (b : Bits) : (s.writeOut b).stream = s.stream := rfl
@[simp] theorem State.writeOut_did (s : State) (b : Bits) : (s.writeOut b).did = s.did := rfl
@[simp] theorem State.writeOut_sdid (s : State) (b : Bits) : (s.writeOut b).sdid = s.sdid := rfl
@[simp] theorem State.writeOut_wc (s : State) (b : Bits) : (s.writeOut b).wc = s.wc := rfl
@[simp] theorem State.writeOut_cs (s : State) (b : Bits) : (s.writeOut b).cs = s.cs := rfl
@[simp] theorem State.writeOut_payload (s : State) (b : Bits) : (s.writeOut b).payload = s.payload := rfl
@[simp] theorem State.writeOut_pstate (s : State) (b : Bits) : (s.writeOut b).pstate = s.pstate := rfl
@[simp] theorem State.writeOut_buf (s : State) (b : Bits) : (s.writeOut b).buf = s.buf := rfl
@[simp] theorem State.writeOut_len (s : State) (b : Bits) : (s.writeOut b).len = s.len := rfl
@[simp] theorem State.writeOut_pos (s : State) (b : Bits) : (s.writeOut b).pos = s.pos := rfl
@[simp] theorem State.writeOut_out (s : State) (b : Bits) : (s.writeOut b).out = BitMem.ofBits 0 b := rfl
@[simp] theorem State.writeOut_olen (s : State) (b : Bits) : (s.writeOut b).olen = BitVec.ofNat 13 b.length := rfl
@[simp] theorem State.writeOut_fault (s : State) (b : Bits) : (s.writeOut b).fault = s.fault := rfl
@[simp] theorem State.writeOut_finfo (s : State) (b : Bits) : (s.writeOut b).finfo = s.finfo := rfl
@[simp] theorem State.writeOut_params (s : State) (b : Bits) : (s.writeOut b).params = s.params := rfl
@[simp] theorem State.writeOut_resp (s : State) (b : Bits) : (s.writeOut b).resp = s.resp := rfl
@[simp] theorem State.writeOut_host (s : State) (b : Bits) : (s.writeOut b).host = s.host := rfl
@[simp] theorem State.writeOut_resets (s : State) (b : Bits) : (s.writeOut b).resets = s.resets := rfl

/-! ### `softReset` -/

@[simp] theorem State.softReset_c (s : State) : (s.softReset).c = 0 := rfl
@[simp] theorem State.softReset_line (s : State) : (s.softReset).line = 0 := rfl
@[simp] theorem State.softReset_hoff (s : State) : (s.softReset).hoff = 0 := rfl
@[simp] theorem State.softReset_sflag (s : State) : (s.softReset).sflag = 0 := rfl
@[simp] theorem State.softReset_stream (s : State) : (s.softReset).stream = 0 := rfl
@[simp] theorem State.softReset_did (s : State) : (s.softReset).did = 0 := rfl
@[simp] theorem State.softReset_sdid (s : State) : (s.softReset).sdid = 0 := rfl
@[simp] theorem State.softReset_wc (s : State) : (s.softReset).wc = 0 := rfl
@[simp] theorem State.softReset_cs (s : State) : (s.softReset).cs = 0 := rfl
@[simp] theorem State.softReset_payload (s : State) : (s.softReset).payload = .raw 0 := rfl
@[simp] theorem State.softReset_pstate (s : State) : (s.softReset).pstate = .empty := rfl
@[simp] theorem State.softReset_buf (s : State) : (s.softReset).buf = s.buf := rfl
@[simp] theorem State.softReset_len (s : State) : (s.softReset).len = 0 := rfl
@[simp] theorem State.softReset_pos (s : State) : (s.softReset).pos = 0 := rfl
@[simp] theorem State.softReset_out (s : State) : (s.softReset).out = [] := rfl
@[simp] theorem State.softReset_olen (s : State) : (s.softReset).olen = 0 := rfl
@[simp] theorem State.softReset_fault (s : State) : (s.softReset).fault = 0 := rfl
@[simp] theorem State.softReset_finfo (s : State) : (s.softReset).finfo = 0 := rfl
@[simp] theorem State.softReset_params (s : State) : (s.softReset).params = s.params := rfl
@[simp] theorem State.softReset_resp (s : State) : (s.softReset).resp = none := rfl
@[simp] theorem State.softReset_host (s : State) : (s.softReset).host = s.host := rfl
@[simp] theorem State.softReset_resets (s : State) : (s.softReset).resets = s.resets := rfl

/-! ### `hardReset` -/

@[simp] theorem State.hardReset_c (s : State) : (s.hardReset).c = 0 := rfl
@[simp] theorem State.hardReset_line (s : State) : (s.hardReset).line = 0 := rfl
@[simp] theorem State.hardReset_hoff (s : State) : (s.hardReset).hoff = 0 := rfl
@[simp] theorem State.hardReset_sflag (s : State) : (s.hardReset).sflag = 0 := rfl
@[simp] theorem State.hardReset_stream (s : State) : (s.hardReset).stream = 0 := rfl
@[simp] theorem State.hardReset_did (s : State) : (s.hardReset).did = 0 := rfl
@[simp] theorem State.hardReset_sdid (s : State) : (s.hardReset).sdid = 0 := rfl
@[simp] theorem State.hardReset_wc (s : State) : (s.hardReset).wc = 0 := rfl
@[simp] theorem State.hardReset_cs (s : State) : (s.hardReset).cs = 0 := rfl
@[simp] theorem State.hardReset_payload (s : State) : (s.hardReset).payload = .raw 0 := rfl
@[simp] theorem State.hardReset_pstate (s : State) : (s.hardReset).pstate = .empty := rfl
@[simp] theorem State.hardReset_buf (s : State) : (s.hardReset).buf = [] := rfl
@[simp] theorem State.hardReset_len (s : State) : (s.hardReset).len = 0 := rfl
@[simp] theorem State.hardReset_pos (s : State) : (s.hardReset).pos = 0 := rfl
@[simp] theorem State.hardReset_out (s : State) : (s.hardReset).out = [] := rfl
@[simp] theorem State.hardReset_olen (s : State) : (s.hardReset).olen = 0 := rfl
@[simp] theorem State.hardReset_fault (s : State) : (s.hardReset).fault = 0 := rfl
@[simp] theorem State.hardReset_finfo (s : State) : (s.hardReset).finfo = 0 := rfl
@[simp] theorem State.hardReset_params (s : State) : (s.hardReset).params = s.params := rfl
@[simp] theorem State.hardReset_resp (s : State) : (s.hardReset).resp = none := rfl
@[simp] theorem State.hardReset_host (s : State) : (s.hardReset).host = s.host := rfl
@[simp] theorem State.hardReset_resets (s : State) : (s.hardReset).resets = s.resets + 1 := rfl

/-! ### `materialise` -/

@[simp] theorem State.materialise_c (s : State) (h : Header) (p : Payload) (k : BitVec 9) : (s.materialise h p k).c = h.c := rfl
@[simp] theorem State.materialise_line (s : State) (h : Header) (p : Payload) (k : BitVec 9) : (s.materialise h p k).line = h.line := rfl
@[simp] theorem State.materialise_hoff (s : State) (h : Header) (p : Payload) (k : BitVec 9) : (s.materialise h p k).hoff = h.hoff := rfl
@[simp] theorem State.materialise_sflag (s : State) (h : Header) (p : Payload) (k : BitVec 9) : (s.materialise h p k).sflag = h.sflag := rfl
@[simp] theorem State.materialise_stream (s : State) (h : Header) (p : Payload) (k : BitVec 9) : (s.materialise h p k).stream = h.stream := rfl
@[simp] theorem State.materialise_did (s : State) (h : Header) (p : Payload) (k : BitVec 9) : (s.materialise h p k).did = h.did := rfl
@[simp] theorem State.materialise_sdid (s : State) (h : Header) (p : Payload) (k : BitVec 9) : (s.materialise h p k).sdid = h.sdid := rfl
@[simp] theorem State.materialise_wc (s : State) (h : Header) (p : Payload) (k : BitVec 9) : (s.materialise h p k).wc = h.wc := rfl
@[simp] theorem State.materialise_cs (s : State) (h : Header) (p : Payload) (k : BitVec 9) : (s.materialise h p k).cs = k := rfl
@[simp] theorem State.materialise_payload (s : State) (h : Header) (p : Payload) (k : BitVec 9) : (s.materialise h p k).payload = p := rfl
@[simp] theorem State.materialise_pstate (s : State) (h : Header) (p : Payload) (k : BitVec 9) : (s.materialise h p k).pstate = .decoded := rfl
@[simp] theorem State.materialise_buf (s : State) (h : Header) (p : Payload) (k : BitVec 9) : (s.materialise h p k).buf = s.buf := rfl
@[simp] theorem State.materialise_len (s : State) (h : Header) (p : Payload) (k : BitVec 9) : (s.materialise h p k).len = s.len := rfl
@[simp] theorem State.materialise_pos (s : State) (h : Header) (p : Payload) (k : BitVec 9) : (s.materialise h p k).pos = s.pos := rfl
@[simp] theorem State.materialise_out (s : State) (h : Header) (p : Payload) (k : BitVec 9) : (s.materialise h p k).out = s.out := rfl
@[simp] theorem State.materialise_olen (s : State) (h : Header) (p : Payload) (k : BitVec 9) : (s.materialise h p k).olen = s.olen := rfl
@[simp] theorem State.materialise_fault (s : State) (h : Header) (p : Payload) (k : BitVec 9) : (s.materialise h p k).fault = s.fault := rfl
@[simp] theorem State.materialise_finfo (s : State) (h : Header) (p : Payload) (k : BitVec 9) : (s.materialise h p k).finfo = s.finfo := rfl
@[simp] theorem State.materialise_params (s : State) (h : Header) (p : Payload) (k : BitVec 9) : (s.materialise h p k).params = s.params := rfl
@[simp] theorem State.materialise_resp (s : State) (h : Header) (p : Payload) (k : BitVec 9) : (s.materialise h p k).resp = s.resp := rfl
@[simp] theorem State.materialise_host (s : State) (h : Header) (p : Payload) (k : BitVec 9) : (s.materialise h p k).host = s.host := rfl
@[simp] theorem State.materialise_resets (s : State) (h : Header) (p : Payload) (k : BitVec 9) : (s.materialise h p k).resets = s.resets := rfl

/-! ### `completed` -/

@[simp] theorem State.completed_c (s : State) (d : Nat) : (s.completed d).c = s.c := rfl
@[simp] theorem State.completed_line (s : State) (d : Nat) : (s.completed d).line = s.line := rfl
@[simp] theorem State.completed_hoff (s : State) (d : Nat) : (s.completed d).hoff = s.hoff := rfl
@[simp] theorem State.completed_sflag (s : State) (d : Nat) : (s.completed d).sflag = s.sflag := rfl
@[simp] theorem State.completed_stream (s : State) (d : Nat) : (s.completed d).stream = s.stream := rfl
@[simp] theorem State.completed_did (s : State) (d : Nat) : (s.completed d).did = s.did := rfl
@[simp] theorem State.completed_sdid (s : State) (d : Nat) : (s.completed d).sdid = s.sdid := rfl
@[simp] theorem State.completed_wc (s : State) (d : Nat) : (s.completed d).wc = s.wc := rfl
@[simp] theorem State.completed_cs (s : State) (d : Nat) : (s.completed d).cs = s.cs := rfl
@[simp] theorem State.completed_payload (s : State) (d : Nat) : (s.completed d).payload = s.payload := rfl
@[simp] theorem State.completed_pstate (s : State) (d : Nat) : (s.completed d).pstate = s.pstate := rfl
@[simp] theorem State.completed_buf (s : State) (d : Nat) : (s.completed d).buf = s.buf := rfl
@[simp] theorem State.completed_len (s : State) (d : Nat) : (s.completed d).len = s.len := rfl
@[simp] theorem State.completed_pos (s : State) (d : Nat) : (s.completed d).pos = s.pos := rfl
@[simp] theorem State.completed_out (s : State) (d : Nat) : (s.completed d).out = s.out := rfl
@[simp] theorem State.completed_olen (s : State) (d : Nat) : (s.completed d).olen = s.olen := rfl
@[simp] theorem State.completed_fault (s : State) (d : Nat) : (s.completed d).fault = s.fault := rfl
@[simp] theorem State.completed_finfo (s : State) (d : Nat) : (s.completed d).finfo = s.finfo := rfl
@[simp] theorem State.completed_params (s : State) (d : Nat) : (s.completed d).params = s.params := rfl
@[simp] theorem State.completed_resp (s : State) (d : Nat) : (s.completed d).resp = some ⟨0#4, BitVec.ofNat 64 d⟩ := rfl
@[simp] theorem State.completed_host (s : State) (d : Nat) : (s.completed d).host = s.host := rfl
@[simp] theorem State.completed_resets (s : State) (d : Nat) : (s.completed d).resets = s.resets := rfl

/-! ### `faulted` -/

@[simp] theorem State.faulted_c (s : State) (k : BitVec 4) (i : Nat) : (s.faulted k i).c = s.c := rfl
@[simp] theorem State.faulted_line (s : State) (k : BitVec 4) (i : Nat) : (s.faulted k i).line = s.line := rfl
@[simp] theorem State.faulted_hoff (s : State) (k : BitVec 4) (i : Nat) : (s.faulted k i).hoff = s.hoff := rfl
@[simp] theorem State.faulted_sflag (s : State) (k : BitVec 4) (i : Nat) : (s.faulted k i).sflag = s.sflag := rfl
@[simp] theorem State.faulted_stream (s : State) (k : BitVec 4) (i : Nat) : (s.faulted k i).stream = s.stream := rfl
@[simp] theorem State.faulted_did (s : State) (k : BitVec 4) (i : Nat) : (s.faulted k i).did = s.did := rfl
@[simp] theorem State.faulted_sdid (s : State) (k : BitVec 4) (i : Nat) : (s.faulted k i).sdid = s.sdid := rfl
@[simp] theorem State.faulted_wc (s : State) (k : BitVec 4) (i : Nat) : (s.faulted k i).wc = s.wc := rfl
@[simp] theorem State.faulted_cs (s : State) (k : BitVec 4) (i : Nat) : (s.faulted k i).cs = s.cs := rfl
@[simp] theorem State.faulted_payload (s : State) (k : BitVec 4) (i : Nat) : (s.faulted k i).payload = s.payload := rfl
@[simp] theorem State.faulted_pstate (s : State) (k : BitVec 4) (i : Nat) : (s.faulted k i).pstate = s.pstate := rfl
@[simp] theorem State.faulted_buf (s : State) (k : BitVec 4) (i : Nat) : (s.faulted k i).buf = s.buf := rfl
@[simp] theorem State.faulted_len (s : State) (k : BitVec 4) (i : Nat) : (s.faulted k i).len = s.len := rfl
@[simp] theorem State.faulted_pos (s : State) (k : BitVec 4) (i : Nat) : (s.faulted k i).pos = s.pos := rfl
@[simp] theorem State.faulted_out (s : State) (k : BitVec 4) (i : Nat) : (s.faulted k i).out = s.out := rfl
@[simp] theorem State.faulted_olen (s : State) (k : BitVec 4) (i : Nat) : (s.faulted k i).olen = s.olen := rfl
@[simp] theorem State.faulted_fault (s : State) (k : BitVec 4) (i : Nat) : (s.faulted k i).fault = k := rfl
@[simp] theorem State.faulted_finfo (s : State) (k : BitVec 4) (i : Nat) : (s.faulted k i).finfo = BitVec.ofNat 24 i := rfl
@[simp] theorem State.faulted_params (s : State) (k : BitVec 4) (i : Nat) : (s.faulted k i).params = s.params := rfl
@[simp] theorem State.faulted_resp (s : State) (k : BitVec 4) (i : Nat) : (s.faulted k i).resp = some ⟨k, 0#64⟩ := rfl
@[simp] theorem State.faulted_host (s : State) (k : BitVec 4) (i : Nat) : (s.faulted k i).host = s.host := rfl
@[simp] theorem State.faulted_resets (s : State) (k : BitVec 4) (i : Nat) : (s.faulted k i).resets = s.resets := rfl

/-! ### `writeReg`: what no register write touches -/

@[simp] theorem State.writeReg_pstate (s : State) (r : Reg) (v : Nat) : (s.writeReg r v).pstate = s.pstate := by
  cases r
  case desc => simp only [State.writeReg]; split <;> rfl
  all_goals rfl
@[simp] theorem State.writeReg_buf (s : State) (r : Reg) (v : Nat) : (s.writeReg r v).buf = s.buf := by
  cases r
  case desc => simp only [State.writeReg]; split <;> rfl
  all_goals rfl
@[simp] theorem State.writeReg_len (s : State) (r : Reg) (v : Nat) : (s.writeReg r v).len = s.len := by
  cases r
  case desc => simp only [State.writeReg]; split <;> rfl
  all_goals rfl
@[simp] theorem State.writeReg_pos (s : State) (r : Reg) (v : Nat) : (s.writeReg r v).pos = s.pos := by
  cases r
  case desc => simp only [State.writeReg]; split <;> rfl
  all_goals rfl
@[simp] theorem State.writeReg_out (s : State) (r : Reg) (v : Nat) : (s.writeReg r v).out = s.out := by
  cases r
  case desc => simp only [State.writeReg]; split <;> rfl
  all_goals rfl
@[simp] theorem State.writeReg_olen (s : State) (r : Reg) (v : Nat) : (s.writeReg r v).olen = s.olen := by
  cases r
  case desc => simp only [State.writeReg]; split <;> rfl
  all_goals rfl
@[simp] theorem State.writeReg_fault (s : State) (r : Reg) (v : Nat) : (s.writeReg r v).fault = s.fault := by
  cases r
  case desc => simp only [State.writeReg]; split <;> rfl
  all_goals rfl
@[simp] theorem State.writeReg_finfo (s : State) (r : Reg) (v : Nat) : (s.writeReg r v).finfo = s.finfo := by
  cases r
  case desc => simp only [State.writeReg]; split <;> rfl
  all_goals rfl
@[simp] theorem State.writeReg_params (s : State) (r : Reg) (v : Nat) : (s.writeReg r v).params = s.params := by
  cases r
  case desc => simp only [State.writeReg]; split <;> rfl
  all_goals rfl
@[simp] theorem State.writeReg_resp (s : State) (r : Reg) (v : Nat) : (s.writeReg r v).resp = s.resp := by
  cases r
  case desc => simp only [State.writeReg]; split <;> rfl
  all_goals rfl
@[simp] theorem State.writeReg_host (s : State) (r : Reg) (v : Nat) : (s.writeReg r v).host = s.host := by
  cases r
  case desc => simp only [State.writeReg]; split <;> rfl
  all_goals rfl
@[simp] theorem State.writeReg_resets (s : State) (r : Reg) (v : Nat) : (s.writeReg r v).resets = s.resets := by
  cases r
  case desc => simp only [State.writeReg]; split <;> rfl
  all_goals rfl

/-! ### The statements' words and the model's -/

theorem State.respond_zero (s : State) (d : Nat) : s.respond 0 d = s.completed d := rfl

theorem State.raise_eq (s : State) (r : Raised) : s.raise r = s.faulted r.cause.code r.info := rfl

end Sys2Proof.Machine
end

