-- ==== Sys2Proof/Laws/Cursor.lean ====
section
/-! SUPPORT. What the reads of a decode do: each function of the cursor, the header, the payload and the trailer has one lemma
for enough bits and one for too few (spec/40_bitcursor.md, 42_headercodec.md, 43_payloadresolver.md, 44_packet.md). -/

-- One theorem at a time: elaborated side by side, the theorems take more threads than the check's memory limit allows.
set_option Elab.async false

namespace Sys2Proof.Machine

variable {s : State} {n p wc : Nat}

theorem except_bind_ok {ε α β : Type} (a : α) (f : α → Except ε β) : (Except.ok a >>= f) = f a := rfl

theorem except_bind_error {ε α β : Type} (e : ε) (f : α → Except ε β) :
    ((Except.error e : Except ε α) >>= f) = Except.error e := rfl

theorem read_of_le (h : n ≤ s.len.toNat - p) : read s n p = .ok (s.memRead p n, p + n) := if_neg (by omega)

theorem read_of_lt (h : s.len.toNat - p < n) : read s n p = .error ⟨.truncatedInput, n⟩ := if_pos h

theorem skip_of_le (h : n ≤ s.len.toNat - p) : skip s n p = .ok (p + n) := if_neg (by omega)

theorem skip_of_lt (h : s.len.toNat - p < n) : skip s n p = .error ⟨.truncatedInput, n⟩ := if_pos h

theorem readWide_of_le (h : n ≤ s.len.toNat - p) : readWide s n p = .ok (s.memRead p n, p + n) := if_neg (by omega)

theorem readWide_of_lt (h : s.len.toNat - p < n) : readWide s n p = .error ⟨.truncatedInput, n⟩ := if_pos h

theorem readProtected_of_le (h : 10 ≤ s.len.toNat - p) :
    readProtected s p = .ok (BitVec.ofNat 8 (s.memRead (p + 2) 8), p + 10) := by
  rw [readProtected, skip_of_le (by omega), except_bind_ok, read_of_le (by omega), except_bind_ok]
  rfl

/-- The width a protected byte's truncation records (42_headercodec.md rule R131): the skip's, or the read's. -/
theorem readProtected_of_lt (h : s.len.toNat - p < 10) :
    readProtected s p = .error ⟨.truncatedInput, if s.len.toNat - p < 2 then 2 else 8⟩ := by
  rw [readProtected]
  by_cases h2 : s.len.toNat - p < 2
  · rw [skip_of_lt h2, except_bind_error, if_pos h2]
  · rw [skip_of_le (by omega), except_bind_ok, read_of_lt (by omega), except_bind_error, if_neg h2]

/-- The header at a position of BUF (30_encoding.md rule R77). -/
def headerAt (s : State) (p : Nat) : Header where
  c := BitVec.ofNat 1 (s.memRead p 1)
  line := BitVec.ofNat 11 (s.memRead (p + 1) 11)
  hoff := BitVec.ofNat 12 (s.memRead (p + 12) 12)
  sflag := BitVec.ofNat 1 (s.memRead (p + 24) 1)
  stream := BitVec.ofNat 7 (s.memRead (p + 25) 7)
  did := BitVec.ofNat 8 (s.memRead (p + 34) 8)
  sdid := BitVec.ofNat 8 (s.memRead (p + 44) 8)
  wc := BitVec.ofNat 8 (s.memRead (p + 54) 8)

theorem hdrDecode_of_le (h : 62 ≤ s.len.toNat - p) : hdrDecode s p = .ok (headerAt s p, p + 62) := by
  rw [hdrDecode, read_of_le (by omega), except_bind_ok]
  dsimp only
  rw [read_of_le (by omega), except_bind_ok]
  dsimp only
  rw [read_of_le (by omega), except_bind_ok]
  dsimp only
  rw [read_of_le (by omega), except_bind_ok]
  dsimp only
  rw [read_of_le (by omega), except_bind_ok]
  dsimp only
  rw [readProtected_of_le (by omega), except_bind_ok]
  dsimp only
  rw [readProtected_of_le (by omega), except_bind_ok]
  dsimp only
  rw [readProtected_of_le (by omega), except_bind_ok]
  rfl

/-- The width a truncated header records, by how many bits were left (95_test_vectors.md V26). -/
def hdrStop (left : Nat) : Nat :=
  if left < 1 then 1 else if left < 12 then 11 else if left < 24 then 12 else if left < 25 then 1
  else if left < 32 then 7 else if left < 34 then 2 else if left < 42 then 8 else if left < 44 then 2
  else if left < 52 then 8 else if left < 54 then 2 else 8

theorem hdrDecode_of_lt (h : s.len.toNat - p < 62) :
    hdrDecode s p = .error ⟨.truncatedInput, hdrStop (s.len.toNat - p)⟩ := by
  rw [hdrDecode]
  by_cases h1 : s.len.toNat - p < 1
  · rw [read_of_lt (by omega), except_bind_error, hdrStop, if_pos h1]
  rw [read_of_le (by omega), except_bind_ok]
  dsimp only
  by_cases h2 : s.len.toNat - p < 12
  · rw [read_of_lt (by omega), except_bind_error, hdrStop, if_neg h1, if_pos h2]
  rw [read_of_le (by omega), except_bind_ok]
  dsimp only
  by_cases h3 : s.len.toNat - p < 24
  · rw [read_of_lt (by omega), except_bind_error, hdrStop, if_neg h1, if_neg h2, if_pos h3]
  rw [read_of_le (by omega), except_bind_ok]
  dsimp only
  by_cases h4 : s.len.toNat - p < 25
  · rw [read_of_lt (by omega), except_bind_error, hdrStop, if_neg h1, if_neg h2, if_neg h3, if_pos h4]
  rw [read_of_le (by omega), except_bind_ok]
  dsimp only
  by_cases h5 : s.len.toNat - p < 32
  · rw [read_of_lt (by omega), except_bind_error, hdrStop, if_neg h1, if_neg h2, if_neg h3, if_neg h4, if_pos h5]
  rw [read_of_le (by omega), except_bind_ok]
  dsimp only
  by_cases h6 : s.len.toNat - p < 34
  · rw [readProtected_of_lt (by omega), except_bind_error, if_pos (by omega), hdrStop, if_neg h1, if_neg h2, if_neg h3, if_neg h4, if_neg h5, if_pos h6]
  by_cases h7 : s.len.toNat - p < 42
  · rw [readProtected_of_lt (by omega), except_bind_error, if_neg (by omega), hdrStop, if_neg h1, if_neg h2, if_neg h3, if_neg h4, if_neg h5, if_neg h6, if_pos h7]
  rw [readProtected_of_le (by omega), except_bind_ok]
  dsimp only
  by_cases h8 : s.len.toNat - p < 44
  · rw [readProtected_of_lt (by omega), except_bind_error, if_pos (by omega), hdrStop, if_neg h1, if_neg h2, if_neg h3, if_neg h4, if_neg h5, if_neg h6, if_neg h7, if_pos h8]
  by_cases h9 : s.len.toNat - p < 52
  · rw [readProtected_of_lt (by omega), except_bind_error, if_neg (by omega), hdrStop, if_neg h1, if_neg h2, if_neg h3, if_neg h4, if_neg h5, if_neg h6, if_neg h7, if_neg h8, if_pos h9]
  rw [readProtected_of_le (by omega), except_bind_ok]
  dsimp only
  rw [readProtected_of_lt (by omega), except_bind_error, hdrStop, if_neg h1, if_neg h2, if_neg h3, if_neg h4, if_neg h5, if_neg h6, if_neg h7, if_neg h8, if_neg h9]
  by_cases h10 : s.len.toNat - p < 54
  · rw [if_pos (by omega), if_pos h10]
  · rw [if_neg (by omega), if_neg h10]

theorem readBytes_of_le (h : 10 * wc ≤ s.len.toNat - p) :
    readBytes s wc p = .ok ((List.range wc).map fun i => BitVec.ofNat 8 (s.memRead (p + 2 + 10 * i) 8), p + 10 * wc) := by
  induction wc generalizing p with
  | zero => rfl
  | succ wc ih =>
    rw [readBytes, readProtected_of_le (by omega), except_bind_ok]
    dsimp only
    rw [ih (by omega), except_bind_ok]
    simp only [pure, Except.pure, Except.ok.injEq, Prod.mk.injEq, List.range_succ_eq_map, List.map_cons, List.map_map,
      Nat.mul_zero, Nat.add_zero, List.cons.injEq, true_and]
    refine ⟨List.map_congr_left fun i _ => ?_, by omega⟩
    simp only [Function.comp, Nat.succ_eq_add_one]
    congr 2
    omega

/-- The width truncated payload bytes record: 2 or 8, as the missing bits are a skip's or a read's. -/
theorem readBytes_of_lt (h : s.len.toNat - p < 10 * wc) :
    readBytes s wc p = .error ⟨.truncatedInput, if (s.len.toNat - p) % 10 < 2 then 2 else 8⟩ := by
  induction wc generalizing p with
  | zero => omega
  | succ wc ih =>
    rw [readBytes]
    by_cases h1 : s.len.toNat - p < 10
    · rw [readProtected_of_lt h1, except_bind_error, Nat.mod_eq_of_lt h1]
    · rw [readProtected_of_le (by omega), except_bind_ok]
      dsimp only
      rw [ih (by omega), except_bind_error]
      have : (s.len.toNat - (p + 10)) % 10 = (s.len.toNat - p) % 10 := by omega
      rw [this]

theorem trailerDecode_of_le (h : 10 ≤ s.len.toNat - p) :
    trailerDecode s p = .ok (BitVec.ofNat 9 (s.memRead (p + 1) 9), p + 10) := by
  rw [trailerDecode, skip_of_le (by omega), except_bind_ok, read_of_le (by omega), except_bind_ok]
  rfl

theorem trailerDecode_of_lt (h : s.len.toNat - p < 10) :
    trailerDecode s p = .error ⟨.truncatedInput, if s.len.toNat - p < 1 then 1 else 9⟩ := by
  rw [trailerDecode]
  by_cases h1 : s.len.toNat - p < 1
  · rw [skip_of_lt h1, except_bind_error, if_pos h1]
  · rw [skip_of_le (by omega), except_bind_ok, read_of_lt (by omega), except_bind_error, if_neg h1]

theorem udwDecodeRaw_of_le (h : 10 * wc ≤ s.len.toNat - p) :
    udwDecodeRaw s wc p = .ok (.raw (BitVec.ofNat 2550 (s.memRead p (10 * wc))), p + 10 * wc) := by
  rw [udwDecodeRaw, readWide_of_le h, except_bind_ok]
  rfl

theorem udwDecodeRaw_of_lt (h : s.len.toNat - p < 10 * wc) :
    udwDecodeRaw s wc p = .error ⟨.truncatedInput, 10 * wc⟩ := by
  rw [udwDecodeRaw, readWide_of_lt h, except_bind_error]

/-- The data bytes of the wire words from position `p` on (30_encoding.md rule R77). -/
def bytesAt (s : State) (wc p : Nat) : List Byte :=
  (List.range wc).map fun i => BitVec.ofNat 8 (s.memRead (p + 2 + 10 * i) 8)

theorem udwDecodeDelegated_of_lt (h : s.len.toNat - p < 10 * wc) :
    udwDecodeDelegated s wc p = .error ⟨.truncatedInput, if (s.len.toNat - p) % 10 < 2 then 2 else 8⟩ := by
  rw [udwDecodeDelegated, readBytes_of_lt h, except_bind_error]

/-- The delegated payload once all its bytes are there: the descriptor test, then the PayloadCodec's answer. -/
theorem udwDecodeDelegated_of_le (h : 10 * wc ≤ s.len.toNat - p) :
    udwDecodeDelegated s wc p =
      if wc < 2 then .error ⟨.descriptorUnderrun, wc⟩
      else match pcDecode s.params ((bytesAt s wc p).drop 2) with
        | some inner => .ok (.delegated (BitVec.ofNat 16 (((bytesAt s wc p).getD 0 0).toNat * 256 +
            ((bytesAt s wc p).getD 1 0).toNat)) inner, p + 10 * wc)
        | none => .error ⟨.payloadCodecFault, 0⟩ := by
  rw [udwDecodeDelegated, readBytes_of_le h, except_bind_ok]
  rfl

end Sys2Proof.Machine
end

