-- ==== Sys2Proof/Laws/Commands.lean ====
section
/-! SUPPORT. Everything a command can do: one equation for exec, and one inversion lemma per command body. -/

-- One theorem at a time: elaborated side by side, the theorems take more threads than the check's memory limit allows.
set_option Elab.async false

namespace Sys2Proof.Machine

variable {s t u : State} {v : Nat}

theorem complete_ok (s u : State) (v : Nat) : complete s (.ok (u, v)) = .next (u.completed v) := rfl

theorem complete_error (s : State) (r : Raised) : complete s (.error r) = .next (s.faulted r.cause.code r.info) := rfl

theorem command_of_fault_zero (h : s.fault = 0) (b : Except Raised (State × Nat)) : command s b = complete s b :=
  if_pos h

theorem command_of_fault_ne (h : s.fault ≠ 0) (b : Except Raised (State × Nat)) : command s b = .next s.turnAway :=
  if_neg h

/-- What a command's rule computes in a state where it runs. -/
def instrBody (i : Instr) (s : State) : Except Raised (State × Nat) :=
  match i with
  | .cinit n => cinitBody n s
  | .rd n => rdBody n s
  | .sk n => skBody n s
  | .encb b => .ok (s, (encodeByte b).toNat)
  | .decb w => .ok (s, (decodeByte w).toNat)
  | .isdel did sdid => .ok (s, (isDelegated did sdid).toNat)
  | .padlen b => .ok (s, padLen b.toNat)
  | .pkdec => pkdecBody s
  | .pkenc => pkencBody s
  | .rdreg r => rdregBody r s
  | .wrreg r v => wrregBody r v s
  | .rdu k => rduBody k s
  | .wru k d => wruBody k d s
  | .rst => .ok (s.softReset, 0)

/-- The commands that run in the Faulted condition too (45_system.md rule R180). -/
def runsFaulted : Instr → Bool
  | .rst => true
  | .rdreg r => isStatusAddr r
  | _ => false

/-- Every command: it runs and completes or faults, or it is turned away. -/
theorem exec_eq (i : Instr) (s : State) :
    exec i s = if s.fault = 0 ∨ runsFaulted i = true then complete s (instrBody i s) else .next s.turnAway := by
  cases i
  case rst => simp [exec, execRst, instrBody, runsFaulted]
  case rdreg r =>
    by_cases h : isStatusAddr r = true <;> simp [exec, execRdreg, command, instrBody, runsFaulted, h]
  all_goals
    simp only [exec, execCinit, execRd, execSk, execEncb, execDecb, execIsdel, execPadlen, execPkdec, execPkenc,
      execWrreg, execRdu, execWru, command, instrBody, runsFaulted, Bool.false_eq_true, or_false]

/-- The three ways a command is answered: it completes, it faults, or it is turned away. -/
theorem exec_cases {i : Instr} (h : exec i s = .next t) :
    (∃ u v, instrBody i s = .ok (u, v) ∧ t = u.completed v ∧ (s.fault = 0 ∨ runsFaulted i = true)) ∨
    (∃ r, instrBody i s = .error r ∧ t = s.faulted r.cause.code r.info ∧ (s.fault = 0 ∨ runsFaulted i = true)) ∨
    (s.fault ≠ 0 ∧ runsFaulted i = false ∧ t = s.turnAway) := by
  rw [exec_eq] at h
  split at h
  · rename_i hr
    cases hb : instrBody i s with
    | ok uv =>
      obtain ⟨u, v⟩ := uv
      rw [hb, complete_ok] at h
      exact .inl ⟨u, v, rfl, (Host.Outcome.next.inj h).symm, hr⟩
    | error r =>
      rw [hb, complete_error] at h
      exact .inr (.inl ⟨r, rfl, (Host.Outcome.next.inj h).symm, hr⟩)
  · rename_i hr
    rw [not_or] at hr
    exact .inr (.inr ⟨hr.1, by simpa using hr.2, (Host.Outcome.next.inj h).symm⟩)

/-- No command stops the machine. -/
theorem exec_next (i : Instr) (s : State) : ∃ t, exec i s = .next t := by
  rw [exec_eq]
  split
  · cases hb : instrBody i s with
    | ok uv => exact ⟨_, rfl⟩
    | error r => exact ⟨_, rfl⟩
  · exact ⟨_, rfl⟩

theorem exec_of_body_ok {i : Instr} (h0 : s.fault = 0) (hb : instrBody i s = .ok (u, v)) :
    exec i s = .next (u.completed v) := by
  rw [exec_eq, if_pos (.inl h0), hb]
  rfl

theorem exec_of_body_error {i : Instr} {r : Raised} (h0 : s.fault = 0) (hb : instrBody i s = .error r) :
    exec i s = .next (s.faulted r.cause.code r.info) := by
  rw [exec_eq, if_pos (.inl h0), hb]
  rfl

theorem Cause.code_ne_zero (c : Cause) : c.code ≠ 0 := by cases c <;> decide

theorem Cause.code_le (c : Cause) : c.code.toNat ≤ 8 := by cases c <;> decide

theorem cinitBody_ok {n : Nat} (h : cinitBody n s = .ok (u, v)) :
    n ≤ s.params.bufBits.toNat ∧ u = { s with len := BitVec.ofNat 24 n, pos := 0 } ∧ v = 0 := by
  unfold cinitBody at h
  split at h
  · cases h
  · cases h; exact ⟨by omega, rfl, rfl⟩

theorem rdBody_ok {n : Nat} (h : rdBody n s = .ok (u, v)) :
    1 ≤ n ∧ n ≤ 64 ∧ n ≤ s.left ∧ u = s.setPos (s.pos.toNat + n) ∧ v = s.memRead s.pos.toNat n := by
  unfold rdBody at h
  split at h
  · cases h
  · rename_i hn
    simp only [Config.rdMax] at hn
    by_cases hl : s.len.toNat - s.pos.toNat < n
    · rw [read_of_lt hl, except_bind_error] at h
      cases h
    · rw [read_of_le (by omega), except_bind_ok] at h
      cases h
      exact ⟨by omega, by omega, by unfold State.left; omega, rfl, rfl⟩

theorem skBody_ok {n : Nat} (h : skBody n s = .ok (u, v)) :
    n ≤ s.left ∧ u = s.setPos (s.pos.toNat + n) ∧ v = 0 := by
  unfold skBody at h
  by_cases hl : s.len.toNat - s.pos.toNat < n
  · rw [skip_of_lt hl, except_bind_error] at h
    cases h
  · rw [skip_of_le (by omega), except_bind_ok] at h
    cases h
    exact ⟨by unfold State.left; omega, rfl, rfl⟩

theorem udwDecode_ok {h : Header} {p p' : Nat} {payload : Payload} (hd : udwDecode s h p = .ok (payload, p')) :
    10 * h.wc.toNat ≤ s.len.toNat - p ∧ p' = p + 10 * h.wc.toNat := by
  unfold udwDecode at hd
  split at hd
  · by_cases hl : s.len.toNat - p < 10 * h.wc.toNat
    · rw [udwDecodeDelegated_of_lt hl] at hd
      cases hd
    · rw [udwDecodeDelegated_of_le (by omega)] at hd
      split at hd
      · cases hd
      · split at hd
        · cases hd
          exact ⟨by omega, rfl⟩
        · cases hd
  · by_cases hl : s.len.toNat - p < 10 * h.wc.toNat
    · rw [udwDecodeRaw_of_lt hl] at hd
      cases hd
    · rw [udwDecodeRaw_of_le (by omega)] at hd
      cases hd
      exact ⟨by omega, rfl⟩

/-- A completed PKDEC: the packet of the bits at the cursor is materialised and POS passes it. -/
theorem pkdecBody_ok (h : pkdecBody s = .ok (u, v)) :
    ∃ payload p, udwDecode s (headerAt s s.pos.toNat) (s.pos.toNat + 62) = .ok (payload, p) ∧
      72 + 10 * (headerAt s s.pos.toNat).wc.toNat ≤ s.left ∧
      u = (s.materialise (headerAt s s.pos.toNat) payload (BitVec.ofNat 9 (s.memRead (p + 1) 9))).setPos
        (s.pos.toNat + (72 + 10 * (headerAt s s.pos.toNat).wc.toNat)) ∧
      p = s.pos.toNat + 62 + 10 * (headerAt s s.pos.toNat).wc.toNat ∧
      v = 72 + 10 * (headerAt s s.pos.toNat).wc.toNat := by
  unfold pkdecBody at h
  by_cases hl : s.len.toNat - s.pos.toNat < 62
  · rw [hdrDecode_of_lt hl, except_bind_error] at h
    cases h
  · rw [hdrDecode_of_le (by omega), except_bind_ok] at h
    dsimp only at h
    cases hd : udwDecode s (headerAt s s.pos.toNat) (s.pos.toNat + 62) with
    | error r =>
      rw [hd, except_bind_error] at h
      cases h
    | ok pp =>
      obtain ⟨payload, p⟩ := pp
      obtain ⟨hle, hp⟩ := udwDecode_ok hd
      rw [hd, except_bind_ok] at h
      dsimp only at h
      by_cases ht : s.len.toNat - p < 10
      · rw [trailerDecode_of_lt ht, except_bind_error] at h
        cases h
      · rw [trailerDecode_of_le (by omega), except_bind_ok] at h
        cases h
        refine ⟨payload, p, rfl, ?_, ?_, hp, rfl⟩
        · unfold State.left; omega
        · rw [show p + 10 = s.pos.toNat + (72 + 10 * (headerAt s s.pos.toNat).wc.toNat) by omega]

/-- PKDEC with the payload stage's answer put in: what it does once the header is there. -/
theorem pkdecBody_of_payload {payload : Payload} {p : Nat} (hl : 62 ≤ s.left)
    (hd : udwDecode s (headerAt s s.pos.toNat) (s.pos.toNat + 62) = .ok (payload, p)) :
    pkdecBody s = (trailerDecode s p).bind fun cp =>
      .ok ((s.materialise (headerAt s s.pos.toNat) payload cp.1).setPos cp.2,
        72 + 10 * (headerAt s s.pos.toNat).wc.toNat) := by
  unfold pkdecBody
  rw [hdrDecode_of_le hl, except_bind_ok]
  dsimp only
  rw [hd, except_bind_ok]
  rfl

theorem pkdecBody_of_payload_error {r : Raised} (hl : 62 ≤ s.left)
    (hd : udwDecode s (headerAt s s.pos.toNat) (s.pos.toNat + 62) = .error r) : pkdecBody s = .error r := by
  unfold pkdecBody
  rw [hdrDecode_of_le hl, except_bind_ok]
  dsimp only
  rw [hd, except_bind_error]

/-- The output of a PKENC whose payload stage gave `payload` and `wc'`. -/
def encodedState (s : State) (payload : Bits) (wc' : Nat) : State :=
  { s with line := Config.lineSentinel, hoff := Config.hoffSentinel, wc := BitVec.ofNat 8 wc', pstate := .encoded }.writeOut
    (packetBits s payload wc')

theorem pkencBody_ok (h : pkencBody s = .ok (u, v)) :
    ∃ payload wc', s.pstate ≠ .empty ∧ udwEncode s = .ok (payload, wc') ∧ u = encodedState s payload wc' ∧
      v = (packetBits s payload wc').length := by
  unfold pkencBody at h
  split at h
  · cases h
  · rename_i hp
    cases hd : udwEncode s with
    | error r =>
      rw [hd, except_bind_error] at h
      cases h
    | ok pw =>
      obtain ⟨payload, wc'⟩ := pw
      rw [hd, except_bind_ok] at h
      cases h
      exact ⟨payload, wc', hp, rfl, rfl, rfl⟩

theorem pkencBody_of_payload {payload : Bits} {wc' : Nat} (hp : s.pstate ≠ .empty)
    (hd : udwEncode s = .ok (payload, wc')) :
    pkencBody s = .ok (encodedState s payload wc', (packetBits s payload wc').length) := by
  unfold pkencBody
  rw [if_neg hp, hd, except_bind_ok]
  rfl

theorem pkencBody_of_payload_error {r : Raised} (hp : s.pstate ≠ .empty) (hd : udwEncode s = .error r) :
    pkencBody s = .error r := by
  unfold pkencBody
  rw [if_neg hp, hd, except_bind_error]

@[simp] theorem length_encodeBytes (l : List Byte) : (encodeBytes l).length = 10 * l.length := by
  induction l with
  | nil => rfl
  | cons b l ih => simp only [encodeBytes, List.length_append, length_regBits, ih, List.length_cons]; omega

@[simp] theorem length_hdrEncode (c f : BitVec 1) (st : BitVec 7) (d e w : Byte) : (hdrEncode c f st d e w).length = 62 := by
  simp [hdrEncode]

@[simp] theorem length_trailerEncode (cs : BitVec 9) : (trailerEncode cs).length = 10 := by simp [trailerEncode]

theorem length_packetBits (s : State) (payload : Bits) (wc' : Nat) :
    (packetBits s payload wc').length = 72 + payload.length + padLen wc' := by
  simp only [packetBits, List.length_append, length_hdrEncode, length_trailerEncode, length_zeros]
  omega

theorem padLen_bounds (w : Nat) : 2 ≤ padLen w ∧ padLen w ≤ 32 := by
  unfold padLen
  simp only [Config.alignBits]
  omega

/-- The two payload stages of PKENC, and how long the payload is on each. -/
theorem udwEncode_ok {payload : Bits} {wc' : Nat} (h : udwEncode s = .ok (payload, wc')) :
    (∃ uval, s.payload = .raw uval ∧ uval.toNat < 2 ^ (10 * s.wc.toNat) ∧ wc' = s.wc.toNat ∧
      payload = bitsOf (10 * s.wc.toNat) uval.toNat) ∨
    (∃ desc inner ser, s.payload = .delegated desc inner ∧ pcEncode s.params inner = some ser ∧
      wc' = (2 + ser.length) / 2 ∧ wc' ≤ 255 ∧
      payload = encodeBytes (desc.extractLsb' 8 8 :: desc.extractLsb' 0 8 :: ser)) := by
  unfold udwEncode at h
  split at h
  · rename_i desc inner hp
    unfold udwEncodeDelegated at h
    split at h
    · cases h
    · rename_i ser hs
      dsimp only at h
      split at h
      · cases h
      · rename_i hw
        cases h
        refine .inr ⟨desc, inner, ser, hp, hs, ?_, by omega, rfl⟩
        rw [List.length_append, List.length_cons, List.length_cons, List.length_nil]
  · rename_i uval hp
    unfold udwEncodeRaw at h
    split at h
    · cases h
    · cases h
      exact .inl ⟨uval, hp, by omega, rfl, rfl⟩

/-- R171: `OUT` never overflows. -/
theorem length_packetBits_le {payload : Bits} {wc' : Nat} (h : udwEncode s = .ok (payload, wc')) :
    (packetBits s payload wc').length ≤ 5184 := by
  rw [length_packetBits]
  rcases udwEncode_ok h with ⟨uval, -, -, rfl, rfl⟩ | ⟨desc, inner, ser, -, -, hw, hle, rfl⟩
  · have := s.wc.isLt
    have := (padLen_bounds s.wc.toNat).2
    simp
    omega
  · simp only [length_encodeBytes, List.length_cons]
    by_cases h1 : wc' ≤ 252
    · have := (padLen_bounds wc').2
      omega
    · have : wc' = 253 ∨ wc' = 254 ∨ wc' = 255 := by omega
      rcases this with h2 | h2 | h2 <;> rw [h2] at hw ⊢ <;> simp [padLen, Config.alignBits] <;> omega

theorem wrregBody_ok {r : BitVec 8} {w : BitVec 16} (h : wrregBody r w s = .ok (u, v)) :
    ∃ reg, Reg.ofAddr r = some reg ∧ reg.writable = true ∧ s.pstate ≠ .empty ∧ (reg = .desc → s.utag ≠ 0) ∧
      w.toNat < 2 ^ reg.width ∧ u = s.writeReg reg w.toNat ∧ v = 0 := by
  unfold wrregBody writeOperand at h
  split at h
  · cases h
  · rename_i reg hr
    split at h
    · rename_i hw
      unfold checkReg at h
      split at h
      · cases h
      · split at h
        · cases h
        · rename_i h1 h2
          rw [except_bind_ok] at h
          split at h
          · rename_i hlt
            cases h
            refine ⟨reg, hr, hw, ?_, ?_, hlt, rfl, rfl⟩
            · have : reg.isStatus = false := by cases reg <;> first | rfl | cases hw
              simpa [this] using h1
            · simpa using h2
          · cases h
    · cases h

theorem rdregBody_ok {r : BitVec 8} (h : rdregBody r s = .ok (u, v)) :
    ∃ reg, Reg.ofAddr r = some reg ∧ (reg.isStatus = false → s.pstate ≠ .empty) ∧ (reg = .desc → s.utag ≠ 0) ∧
      u = s ∧ v = s.readReg reg := by
  unfold rdregBody readOperand at h
  split at h
  · cases h
  · rename_i reg hr
    unfold checkReg at h
    split at h
    · cases h
    · split at h
      · cases h
      · rename_i h1 h2
        rw [except_bind_ok] at h
        cases h
        exact ⟨_, hr, by simpa using h1, by simpa using h2, rfl, rfl⟩

theorem digitOperand_ok {k : Nat} {x : BitVec 2550} (h : digitOperand s k = .ok x) :
    k ≤ 254 ∧ s.pstate ≠ .empty ∧ s.payload = .raw x := by
  unfold digitOperand at h
  split at h
  · cases h
  · split at h
    · cases h
    · split at h
      · cases h
      · rename_i h1 h2 _ x h3
        cases h
        exact ⟨by omega, h2, h3⟩

theorem rduBody_ok {k : Nat} (h : rduBody k s = .ok (u, v)) :
    ∃ x, k ≤ 254 ∧ s.pstate ≠ .empty ∧ s.payload = .raw x ∧ u = s ∧ v = (readDigit x k).toNat := by
  unfold rduBody at h
  cases hd : digitOperand s k with
  | error r => rw [hd, except_bind_error] at h; cases h
  | ok x =>
    rw [hd, except_bind_ok] at h
    cases h
    obtain ⟨h1, h2, h3⟩ := digitOperand_ok hd
    exact ⟨x, h1, h2, h3, rfl, rfl⟩

theorem wruBody_ok {k : Nat} {d : BitVec 10} (h : wruBody k d s = .ok (u, v)) :
    ∃ x, k ≤ 254 ∧ s.pstate ≠ .empty ∧ s.payload = .raw x ∧
      u = { s with payload := .raw (writeDigit x k d) } ∧ v = 0 := by
  unfold wruBody at h
  cases hd : digitOperand s k with
  | error r => rw [hd, except_bind_error] at h; cases h
  | ok x =>
    rw [hd, except_bind_ok] at h
    cases h
    obtain ⟨h1, h2, h3⟩ := digitOperand_ok hd
    exact ⟨x, h1, h2, h3, rfl, rfl⟩

end Sys2Proof.Machine
end

