-- ==== Sys2Proof/Laws/PerInstr.lean ====
section
/-! SUPPORT. Statements for all commands, one lemma per constructor: `OpcodeByte` says that the word of a command carries its
opcode in `cmd[31:24]` and its argument in `cmd[23:0]` (spec/30_encoding.md rule R79). -/

-- One theorem at a time: elaborated side by side, the theorems take more threads than the check's memory limit allows.
set_option Elab.async false

namespace Sys2Proof

theorem op_append (op : Byte) (arg : BitVec 24) : CmdWord.op (op ++ arg) = op := by
  apply BitVec.eq_of_getLsbD_eq
  intro i hi
  have h := BitVec.getLsbD_append (x := op) (y := arg) (i := 24 + i)
  rw [CmdWord.op, BitVec.getLsbD_extractLsb']
  simpa [hi] using h

theorem arg_append (op : Byte) (arg : BitVec 24) : CmdWord.arg (op ++ arg) = arg := by
  apply BitVec.eq_of_getLsbD_eq
  intro i hi
  have h := BitVec.getLsbD_append (x := op) (y := arg) (i := i)
  rw [CmdWord.arg, BitVec.getLsbD_extractLsb']
  simpa [hi] using h

namespace Laws.OpcodeByte

/-- The fields `op` and `arg` of the command's word. -/
def Statement (i : Instr) : Prop := CmdWord.op (encode i) = i.opcode ∧ CmdWord.arg (encode i) = i.argument

theorem cinit (n : Nat) : Statement (.cinit n) := ⟨op_append _ _, arg_append _ _⟩
theorem rd (n : Nat) : Statement (.rd n) := ⟨op_append _ _, arg_append _ _⟩
theorem sk (n : Nat) : Statement (.sk n) := ⟨op_append _ _, arg_append _ _⟩
theorem encb (b : Byte) : Statement (.encb b) := ⟨op_append _ _, arg_append _ _⟩
theorem decb (w : WireWord) : Statement (.decb w) := ⟨op_append _ _, arg_append _ _⟩
theorem isdel (did sdid : Byte) : Statement (.isdel did sdid) := ⟨op_append _ _, arg_append _ _⟩
theorem padlen (b : Byte) : Statement (.padlen b) := ⟨op_append _ _, arg_append _ _⟩
theorem pkdec : Statement .pkdec := ⟨op_append _ _, arg_append _ _⟩
theorem pkenc : Statement .pkenc := ⟨op_append _ _, arg_append _ _⟩
theorem rdreg (r : BitVec 8) : Statement (.rdreg r) := ⟨op_append _ _, arg_append _ _⟩
theorem wrreg (r : BitVec 8) (v : BitVec 16) : Statement (.wrreg r v) := ⟨op_append _ _, arg_append _ _⟩
theorem rdu (k : Nat) : Statement (.rdu k) := ⟨op_append _ _, arg_append _ _⟩
theorem wru (k : Nat) (d : BitVec 10) : Statement (.wru k d) := ⟨op_append _ _, arg_append _ _⟩
theorem rst : Statement .rst := ⟨op_append _ _, arg_append _ _⟩

end Laws.OpcodeByte

end Sys2Proof
end

