-- ==== Sys2Proof/Laws/Encoding.lean ====
section
/-! SUPPORT. Fields of appended bit vectors, and of a word that fits a mask: what the encoding statements rest on. -/

-- One theorem at a time: elaborated side by side, the theorems take more threads than the check's memory limit allows.
set_option Elab.async false

namespace Sys2Proof

theorem extract_append_above {a b : Nat} (x : BitVec a) (y : BitVec b) (s l : Nat) :
    (x ++ y).extractLsb' (b + s) l = x.extractLsb' s l := by
  apply BitVec.eq_of_getLsbD_eq
  intro i hi
  rw [BitVec.getLsbD_extractLsb', BitVec.getLsbD_extractLsb', BitVec.getLsbD_append]
  simp [show ¬ b + s + i < b by omega, show b + s + i - b = s + i by omega]

theorem extract_append_high {a b : Nat} (x : BitVec a) (y : BitVec b) : (x ++ y).extractLsb' b a = x := by
  have h := extract_append_above x y 0 a
  rw [Nat.add_zero] at h
  rw [h]
  simp

theorem extract_append_low {a b : Nat} (x : BitVec a) (y : BitVec b) (s l : Nat) (h : s + l ≤ b) :
    (x ++ y).extractLsb' s l = y.extractLsb' s l := by
  apply BitVec.eq_of_getLsbD_eq
  intro i hi
  rw [BitVec.getLsbD_extractLsb', BitVec.getLsbD_extractLsb', BitVec.getLsbD_append]
  simp [show s + i < b by omega]

/-- A field that a mask covers whole is the pattern's. -/
theorem field_of_mask {w mask pattern : CmdWord} (h : w &&& mask = pattern) {s l : Nat}
    (hm : mask.extractLsb' s l = BitVec.allOnes l) : w.extractLsb' s l = pattern.extractLsb' s l := by
  have : (w &&& mask).extractLsb' s l = w.extractLsb' s l &&& mask.extractLsb' s l := by
    apply BitVec.eq_of_getLsbD_eq
    intro i hi
    simp only [BitVec.getLsbD_extractLsb', BitVec.getLsbD_and]
    cases decide (i < l) <;> simp
  rw [← h, this, hm, BitVec.and_allOnes]

/-- A word is its opcode and its argument. -/
theorem op_append_arg (w : CmdWord) : CmdWord.op w ++ CmdWord.arg w = w := by
  apply BitVec.eq_of_getLsbD_eq
  intro i hi
  have h := BitVec.getLsbD_append (x := CmdWord.op w) (y := CmdWord.arg w) (i := i)
  rw [h, CmdWord.op, CmdWord.arg, BitVec.getLsbD_extractLsb', BitVec.getLsbD_extractLsb']
  by_cases h24 : i < 24
  · simp [h24]
  · simp [h24, show i - 24 < 8 by omega, show 24 + (i - 24) = i by omega]

end Sys2Proof
end

