-- ==== Sys2Proof/Laws/Operands.lean ====
section
/-! SUPPORT. What the shared operations under the commands compute: the digits of UVAL, the register addresses, the wire
words, the payload stage of PKENC, and what no command touches. -/

-- One theorem at a time: elaborated side by side, the theorems take more threads than the check's memory limit allows.
set_option Elab.async false

namespace Sys2Proof.Machine

variable {s t u : State} {v : Nat}

/-- The ten bits of the mask a digit is cleared with (10_state.md rule R25). -/
theorem getLsbD_digitMask (j : Nat) (hj : j < 2550) : (0x3FF#2550).getLsbD j = decide (j < 10) := by
  have h1 : (0x3FF#2550) = BitVec.ofNat 2550 (2 ^ 10 - 1) := rfl
  rw [h1, BitVec.getLsbD_ofNat, Nat.testBit_two_pow_sub_one]
  simp [hj]

/-- A digit write (R185), bit by bit. -/
theorem getLsbD_writeDigit (x : BitVec 2550) (k : Nat) (d : BitVec 10) (i : Nat) (hi : i < 2550) :
    (writeDigit x k d).getLsbD i =
      if 10 * k ≤ i ∧ i < 10 * k + 10 then d.getLsbD (i - 10 * k) else x.getLsbD i := by
  have hj : i - 10 * k < 2550 := by omega
  simp only [writeDigit, BitVec.getLsbD_or, BitVec.getLsbD_and, BitVec.getLsbD_not, BitVec.getLsbD_shiftLeft,
    BitVec.getLsbD_setWidth, getLsbD_digitMask _ hj, hi, hj, decide_true, Bool.true_and]
  by_cases h1 : i < 10 * k
  · rw [if_neg (by omega)]
    simp [h1]
  · by_cases h2 : i < 10 * k + 10
    · rw [if_pos (by omega)]
      simp [h1, show i - 10 * k < 10 by omega]
    · rw [if_neg (by omega)]
      simp [h1, show ¬ i - 10 * k < 10 by omega, BitVec.getLsbD_of_ge d (i - 10 * k) (by omega)]

/-- A digit read (R184), as a number. -/
theorem toNat_readDigit (x : BitVec 2550) (k : Nat) : (readDigit x k).toNat = x.toNat / 2 ^ (10 * k) % 1024 := by
  simp [readDigit, Nat.shiftRight_eq_div_pow]

/-- The register map of R34 in one line per question: which addresses are reserved, which are status registers, which
registers may be written, and how wide those are. -/
theorem Reg.ofAddr_spec : ∀ r : BitVec 8,
    (Reg.ofAddr r = none ↔ (0x0B ≤ r.toNat ∧ r.toNat ≤ 0x0F) ∨ 0x16 ≤ r.toNat) ∧
    ∀ reg, Reg.ofAddr r = some reg →
      (reg.isStatus = isStatusAddr r) ∧ (reg.writable = decide (r.toNat ≤ 0x0A ∧ r.toNat ≠ 0x09)) ∧
      (reg = .desc ↔ r = 0x0A) ∧
      (r.toNat ≤ 0x08 → reg.width = [1, 11, 12, 1, 7, 8, 8, 8, 9].getD r.toNat 0) := by
  decide +kernel

/-- A wire word in stream order is its two protection bits, then its byte (41_wordcodec.md rules R120, R122). -/
theorem regBits_encodeByte (b : Byte) : ∃ l, l.length = 2 ∧ regBits (encodeByte b) = l ++ regBits b := by
  have h : (encodeByte b).toNat % 256 = b.toNat := by
    revert b
    decide +kernel
  refine ⟨bitsOf 2 ((encodeByte b).toNat / 2 ^ 8), by simp, val_inj (by simp) ?_⟩
  have := (encodeByte b).isLt
  rw [val_append, val_bitsOf, val_regBits, val_regBits, length_regBits]
  omega

/-- A read inside a run of BUF that is known: the value of that part of it. -/
theorem State.memRead_of_bufBits {a n k w : Nat} {l m r : Bits} (h : s.bufBits a n = l ++ m ++ r) (hk : l.length = k)
    (hm : m.length = w) : s.memRead (a + k) w = val m := by
  have hn : n = k + w + r.length := by
    have := congrArg List.length h
    simp only [State.length_bufBits, List.length_append, hk, hm] at this
    omega
  rw [hn, State.bufBits_add, State.bufBits_add] at h
  have h1 := List.append_inj_left h (by simp [hk, hm])
  rw [State.memRead, List.append_inj_right h1 (by simp [hk])]

theorem udwEncode_raw {x : BitVec 2550} (hp : s.payload = .raw x) (hx : x.toNat < 2 ^ (10 * s.wc.toNat)) :
    udwEncode s = .ok (bitsOf (10 * s.wc.toNat) x.toNat, s.wc.toNat) := by
  rw [udwEncode, hp]
  exact if_neg (by omega)

theorem udwEncode_delegated {desc : BitVec 16} {inner : Inner} {ser : List Byte} (hp : s.payload = .delegated desc inner)
    (he : pcEncode s.params inner = some ser) (hw : (2 + ser.length) / 2 ≤ 255) :
    udwEncode s =
      .ok (encodeBytes (desc.extractLsb' 8 8 :: desc.extractLsb' 0 8 :: ser), (2 + ser.length) / 2) := by
  have hl : ([desc.extractLsb' 8 8, desc.extractLsb' 0 8] ++ ser).length = 2 + ser.length := by
    rw [List.length_append, List.length_cons, List.length_cons, List.length_nil]
  rw [udwEncode, hp]
  simp only [udwEncodeDelegated, he, hl]
  exact if_neg (by omega)

/-- What no completed command changes but RST: FAULT and FINFO (10_state.md rule R32). -/
theorem body_fault {i : Instr} (h : instrBody i s = .ok (u, v)) :
    (i = .rst ∧ u = s.softReset) ∨ (u.fault = s.fault ∧ u.finfo = s.finfo) := by
  cases i with
  | cinit n => obtain ⟨-, rfl, -⟩ := cinitBody_ok h; exact .inr ⟨rfl, rfl⟩
  | rd n => obtain ⟨-, -, -, rfl, -⟩ := rdBody_ok h; exact .inr ⟨rfl, rfl⟩
  | sk n => obtain ⟨-, rfl, -⟩ := skBody_ok h; exact .inr ⟨rfl, rfl⟩
  | encb b => cases h; exact .inr ⟨rfl, rfl⟩
  | decb b => cases h; exact .inr ⟨rfl, rfl⟩
  | isdel b c => cases h; exact .inr ⟨rfl, rfl⟩
  | padlen b => cases h; exact .inr ⟨rfl, rfl⟩
  | pkdec => obtain ⟨p, q, -, -, rfl, -⟩ := pkdecBody_ok h; exact .inr ⟨rfl, rfl⟩
  | pkenc => obtain ⟨p, q, -, -, rfl, -⟩ := pkencBody_ok h; exact .inr ⟨rfl, rfl⟩
  | rdreg r => obtain ⟨_, -, -, -, rfl, -⟩ := rdregBody_ok h; exact .inr ⟨rfl, rfl⟩
  | wrreg r w => obtain ⟨_, -, -, -, -, -, rfl, -⟩ := wrregBody_ok h; exact .inr (by simp)
  | rdu k => obtain ⟨_, -, -, -, rfl, -⟩ := rduBody_ok h; exact .inr ⟨rfl, rfl⟩
  | wru k d => obtain ⟨_, -, -, -, rfl, -⟩ := wruBody_ok h; exact .inr ⟨rfl, rfl⟩
  | rst => cases h; exact .inl ⟨rfl, rfl⟩

end Sys2Proof.Machine
end

