-- ==== Sys2Proof/Tests/Slice0.lean ====
section
/-! SUPPORT. The model's own tests. Expected values are those of spec/95_test_vectors.md (the vector is named beside each)
or worked by hand from a numbered rule; then one witness for each statement with hypotheses. -/

-- One theorem at a time: elaborated side by side, the theorems take more threads than the check's memory limit allows.
set_option Elab.async false

open Sys2Proof Sys2Proof.Machine

namespace Sys2Proof.Tests

/-! ### Small states -/

/-- Does an outcome give a next state with this property? -/
def gives (o : Host.Outcome State Fault Refusal) (p : State → Bool) : Bool :=
  match o with
  | .next t => p t
  | .fault _ => false
  | .refused _ => false

/-- The next state of an outcome that gives one. -/
def nextOf (o : Host.Outcome State Fault Refusal) : State :=
  match o with
  | .next t => t
  | .fault _ => State.reset
  | .refused _ => State.reset

/-- A framer whose BUF holds these 32-bit words (R51), with a cursor over its first `n` bits. -/
def holding (words : List Nat) (n : Nat) : State :=
  { State.reset with buf := BitMem.ofBits 0 (words.flatMap (bitsOf 32)), len := BitVec.ofNat 24 n }

/-- Packet A of 95_test_vectors.md. -/
def packetA (n : Nat) : State := holding [0x00900000, 0x5850180E, 0x00406FF6, 0xAC000000] n

/-- Packet E of 95_test_vectors.md, with the identity PayloadCodec on the list it holds. -/
def packetE (n : Nat) : State :=
  { holding [0x00900000, 0x90507819, 0x08406FFB, 0xFE0043AA, 0xA0000000] n with
    params := { Config.resetParams with
      decodeTable := [([0xFF, 0xFF, 0x00, 0x0E], some ⟨[0xFF, 0xFF, 0x00, 0x0E]⟩), ([0xFF], some ⟨[0xFF]⟩)]
      encodeTable := [(⟨[0xFF, 0xFF, 0x00, 0x0E]⟩, some [0xFF, 0xFF, 0x00, 0x0E])] } }

/-- A delegated packet with `wc` payload bytes 08 01 and zeros, and a PayloadCodec that rejects the empty list. -/
def packetNone (n : Nat) : State :=
  { holding [0x00900000, 0x90507409, 0x08406AA0] n with
    params := { Config.resetParams with decodeTable := [([], none)] } }

/-- A packet in the registers: raw, one word. -/
def rawPacket : State := { State.reset with pstate := .decoded, did := 0x61, sdid := 0x01, wc := 1, payload := .raw 0x3FF }

/-- A packet in the registers: delegated, its PayloadCodec answering with `ser`. -/
def delegatedPacket (ser : Option (List Byte)) : State :=
  { State.reset with
    pstate := .decoded, did := 0x41, sdid := 0x07, wc := 6, payload := .delegated 0x0801 ⟨[]⟩
    params := { Config.resetParams with encodeTable := [(⟨[]⟩, ser)], decodeTable := [([0xFF], some ⟨[0xFF]⟩)] } }

/-- The Faulted condition. -/
def faultedState : State := { State.reset with fault := 1, finfo := 1 }

theorem exec_nextOf (i : Instr) (s : State) : exec i s = .next (nextOf (exec i s)) := by
  obtain ⟨t, ht⟩ := exec_next i s
  rw [ht]
  rfl

/-! ### Well-formedness: an ill-formed term for each check -/

theorem test_wf_refuses :
    Instr.wf (.cinit (2 ^ 24)) = false ∧ Instr.wf (.rd 128) = false ∧ Instr.wf (.sk (2 ^ 24)) = false ∧
    Instr.wf (.rdu 256) = false ∧ Instr.wf (.wru 256 0) = false := by decide

theorem test_wf_accepts :
    Instr.wf (.cinit (2 ^ 24 - 1)) = true ∧ Instr.wf (.rd 127) = true ∧ Instr.wf (.sk (2 ^ 24 - 1)) = true ∧
    Instr.wf (.rdu 255) = true ∧ Instr.wf (.wru 255 0x3FF) = true := by decide

/-! ### Decoding: words written out bit by bit from the formats of R80, opcode byte first -/

theorem test_decode_cinit : decode 0b00000001_100000000000000000000001#32 = .ok (.cinit 0x800001) := by decide
theorem test_decode_rd : decode 0b00000010_00000000000000000_1000001#32 = .ok (.rd 65) := by decide
theorem test_decode_sk : decode 0b00000011_000000000000000000011010#32 = .ok (.sk 26) := by decide
theorem test_decode_encb : decode 0b00000100_0000000000000000_01100001#32 = .ok (.encb 0x61) := by decide
theorem test_decode_decb : decode 0b00000101_00000000000000_1001000001#32 = .ok (.decb 0x241) := by decide
theorem test_decode_isdel : decode 0b00000110_00000000_01000001_00000111#32 = .ok (.isdel 0x41 0x07) := by decide
theorem test_decode_padlen : decode 0b00000111_0000000000000000_00001100#32 = .ok (.padlen 12) := by decide
theorem test_decode_pkdec : decode 0b00001000_000000000000000000000000#32 = .ok .pkdec := by decide
theorem test_decode_pkenc : decode 0b00001001_000000000000000000000000#32 = .ok .pkenc := by decide
theorem test_decode_rdreg : decode 0b00001010_00010100_0000000000000000#32 = .ok (.rdreg 0x14) := by decide
theorem test_decode_wrreg : decode 0b00001011_00001000_0000000011110000#32 = .ok (.wrreg 0x08 0x0F0) := by decide
theorem test_decode_rdu : decode 0b00001100_000000_11111111_0000000000#32 = .ok (.rdu 255) := by decide
theorem test_decode_wru : decode 0b00001101_000000_00000011_0100000001#32 = .ok (.wru 3 0x101) := by decide
theorem test_decode_rst : decode 0b00001110_000000000000000000000000#32 = .ok .rst := by decide

/-- The illegal words of V44. -/
theorem test_illegal_words :
    [0x00000000, 0x0F000000, 0xFF000000, 0x02000080, 0x04000100, 0x05000400, 0x06010000, 0x07000100, 0x08000001,
      0x09800000, 0x0A050001, 0x0C000001, 0x0C040000, 0x0D040000, 0x0E000001].all
      (fun w => decodeTableWord 32 w == none) = true := by decide

/-- V44: an illegal word answers 3 / 0 and FINFO holds cmd[23:0]. -/
theorem test_illegal_word_runs :
    gives (step (State.reset.withFetchWord 32 0x0A050001))
      (fun t => t.resp == some ⟨3, 0⟩ && t.fault == 3 && t.finfo == 0x050001) = true := by decide

/-! ### One step of each instruction -/

/-- V13. -/
theorem test_cinit_capacity :
    gives (exec (.cinit 4096) State.reset) (fun t => t.resp == some ⟨0, 0⟩ && t.len == 4096 && t.pos == 0) = true ∧
    gives (exec (.cinit 4097) State.reset) (fun t => t.resp == some ⟨4, 0⟩ && t.finfo == 4097 && t.len == 0) = true := by
  decide

/-- V12: the byte 0xA5. -/
theorem test_rd_most_significant_first :
    gives (exec (.rd 3) (holding [0xA5000000] 8)) (fun t => t.resp == some ⟨0, 5⟩ && t.pos == 3) = true := by
  decide +kernel

/-- V11: the widest read. -/
theorem test_rd_widest :
    gives (exec (.rd 64) (packetA 128)) (fun t => t.resp == some ⟨0, 0x009000005850180E⟩ && t.pos == 64) = true := by
  decide +kernel

/-- V10, step 6. -/
theorem test_sk_past_the_end :
    gives (exec (.sk 97) { packetA 128 with pos := 62 })
      (fun t => t.resp == some ⟨1, 0⟩ && t.pos == 62 && t.fault == 1 && t.finfo == 97) = true := by decide

/-- V13: an empty skip of an empty cursor. -/
theorem test_sk_nothing : gives (exec (.sk 0) State.reset) (fun t => t.resp == some ⟨0, 0⟩) = true := by decide

/-- V14. -/
theorem test_encb_parity :
    gives (exec (.encb 0x61) State.reset) (fun t => t.resp == some ⟨0, 0x161⟩) = true ∧
    gives (exec (.encb 0x41) State.reset) (fun t => t.resp == some ⟨0, 0x241⟩) = true := by decide

/-- V15: the protection bits are not looked at. -/
theorem test_decb_ignores_protection :
    gives (exec (.decb 0x341) State.reset) (fun t => t.resp == some ⟨0, 0x41⟩) = true ∧
    gives (exec (.decb 0x2FF) State.reset) (fun t => t.resp == some ⟨0, 0xFF⟩) = true := by decide

/-- V5. -/
theorem test_isdel :
    gives (exec (.isdel 0x41 0x07) State.reset) (fun t => t.resp == some ⟨0, 1⟩) = true ∧
    gives (exec (.isdel 0x41 0x00) State.reset) (fun t => t.resp == some ⟨0, 0⟩) = true ∧
    gives (exec (.isdel 0x00 0x07) State.reset) (fun t => t.resp == some ⟨0, 0⟩) = true := by decide

/-- V19: the aligned case is 32, not 0. -/
theorem test_padlen :
    gives (exec (.padlen 12) State.reset) (fun t => t.resp == some ⟨0, 32⟩) = true ∧
    gives (exec (.padlen 255) State.reset) (fun t => t.resp == some ⟨0, 2⟩) = true := by decide

/-- V20. -/
theorem test_pkdec_raw :
    gives (exec .pkdec (packetA 128)) (fun t => t.resp == some ⟨0, 102⟩ && t.line == 9 && t.did == 0x61 && t.wc == 3 &&
      t.payload == .raw 0x200406FF && t.cs == 0x1AB && t.pstate == .decoded && t.pos == 102) = true := by
  decide +kernel

/-- V30. -/
theorem test_pkdec_delegated :
    gives (exec .pkdec (packetE 160)) (fun t => t.resp == some ⟨0, 132⟩ && t.wc == 6 && t.cs == 0x0AA &&
      t.payload == .delegated 0x0801 ⟨[0xFF, 0xFF, 0x00, 0x0E]⟩ && t.pos == 132) = true := by
  decide +kernel

/-- V21, on the packet V20 leaves. -/
theorem test_pkenc_raw :
    gives (exec .pkenc (nextOf (exec .pkdec (packetA 128)))) (fun t => t.resp == some ⟨0, 128⟩ && t.line == 0x7FF &&
      t.pstate == .encoded && t.outBits == [0x7FFFFF00, 0x5850180E, 0x00406FF6, 0xAC000000].flatMap (bitsOf 32)) = true := by
  decide +kernel

/-- V31, on the packet V30 leaves: the word count is halved, every payload word is there. -/
theorem test_pkenc_delegated :
    gives (exec .pkenc (nextOf (exec .pkdec (packetE 160)))) (fun t => t.resp == some ⟨0, 158⟩ && t.wc == 3 &&
      t.outBits == [0x7FFFFF00, 0x9050780D, 0x08406FFB, 0xFE0043AA].flatMap (bitsOf 32) ++ bitsOf 30 0x28000000) = true := by
  decide +kernel

/-- V30 (DESC), and a status register in the Faulted condition (V43). -/
theorem test_rdreg :
    gives (exec (.rdreg 0x0A) (delegatedPacket none)) (fun t => t.resp == some ⟨0, 0x0801⟩) = true ∧
    gives (exec (.rdreg 0x14) faultedState) (fun t => t.resp == some ⟨0, 1⟩ && t.fault == 1) = true := by decide

/-- V28 and V41. -/
theorem test_wrreg :
    gives (exec (.wrreg 0x08 0x0F0) rawPacket) (fun t => t.resp == some ⟨0, 0⟩ && t.cs == 0x0F0) = true ∧
    gives (exec (.wrreg 0x08 0x200) rawPacket) (fun t => t.resp == some ⟨4, 0⟩ && t.cs == 0 && t.finfo == 8) = true := by
  decide

/-- V42 (`RDU 2` of packet A's UVAL) and V41 (`RDU 255`). -/
theorem test_rdu :
    gives (exec (.rdu 2) { rawPacket with payload := .raw 0x200406FF }) (fun t => t.resp == some ⟨0, 0x200⟩) = true ∧
    gives (exec (.rdu 255) rawPacket) (fun t => t.resp == some ⟨4, 0⟩ && t.finfo == 255) = true := by decide +kernel

/-- V28: packet A's digit 0 becomes 0x255 (0x200·2^20 + 0x101·2^10 + 0x255). -/
theorem test_wru :
    gives (exec (.wru 0 0x255) { rawPacket with payload := .raw 0x200406FF })
      (fun t => t.resp == some ⟨0, 0⟩ && t.payload == .raw 0x20040655) = true ∧
    gives (exec (.wru 0 0x255) State.reset) (fun t => t.resp == some ⟨5, 0⟩ && t.payload == .raw 0) = true := by
  decide +kernel

/-- V43 and V45: RST leaves the Faulted condition and keeps BUF. -/
theorem test_rst :
    gives (exec .rst { packetA 128 with fault := 1, finfo := 9 })
      (fun t => t.resp == some ⟨0, 0⟩ && t.fault == 0 && t.finfo == 0 && t.len == 0 && t.buf == (packetA 128).buf) = true := by
  decide +kernel

/-- V26: where decoding of packet A stops, at the values where the cases meet. -/
theorem test_pkdec_truncated :
    ([(0, 1), (1, 11), (11, 11), (12, 12), (23, 12), (24, 1), (25, 7), (31, 7), (32, 2), (33, 2), (34, 8), (41, 8), (42, 2),
      (44, 8), (52, 2), (54, 8), (61, 8), (62, 30), (91, 30), (92, 1), (93, 9), (101, 9)].all fun nf =>
      gives (exec .pkdec (packetA nf.1)) fun t => t.resp == some ⟨1, 0⟩ && t.finfo == BitVec.ofNat 24 nf.2 && t.pos == 0)
      = true := by decide +kernel

/-- V36 and V34: a delegated packet's descriptor test, and the answer of a PayloadCodec that fails (V37). -/
theorem test_pkdec_descriptor :
    gives (exec .pkdec (holding [0x00900000, 0x90507405, 0x08AA8000] 96)) (fun t => t.resp == some ⟨6, 0⟩ && t.finfo == 1)
      = true ∧
    gives (exec .pkdec (packetNone 96)) (fun t => t.resp == some ⟨7, 0⟩ && t.finfo == 0) = true := by decide +kernel

/-- V6: the description lookup. -/
theorem test_lookup :
    packetInfo [(0x41, .bySdid [(0x07, "SCTE-104")]), (0x60, .description "Ancillary Time Code")] 0x60 0x12
      = "Ancillary Time Code" := by decide

/-- A format of the views: the header fields, `packetInfo`, DESC as a number, the payload and the checksum word, with
short keys; a leading zero, `<raw>` in decimal. -/
def sampleFormat : ViewFormat (List Byte) where
  keys := [(.num .did, "did"), (.num .sdid, "sdid"), (.packetInfo, "info"), (.num .continuation, "c"), (.num .lineNumber, "line"),
    (.num .horizontalOffset, "hoff"), (.num .fieldFlag, "s"), (.num .streamNumber, "stream"), (.num .wordCount, "wc"),
    (.descriptor, "desc"), (.userDataWords, "udw"), (.num .checksumWord, "cs")]
  descView := fun _ d => .number d.toNat
  leadingZero := fun _ => true
  rawRadix := fun _ => .decimal

theorem test_format_wf : sampleFormat.wf = true ∧ ({ sampleFormat with keys := sampleFormat.keys.tail }).wf = false := by
  decide +kernel

/-- V7; and by R206 a described value becomes the annotated string, and any other field keeps its raw value. -/
theorem test_display_fields :
    displayField sampleFormat [] .did 0x41 = .text "0x41" ∧ displayField sampleFormat [] .checksumWord 0x1AB = .text "0x1ab" ∧
    displayField sampleFormat [((.lineNumber, 2047), "unspecified")] .lineNumber 2047 = .text "(2047) unspecified" ∧
    displayField sampleFormat [] .lineNumber 9 = .number 9 := by decide +kernel

/-- The plain view of a small delegated packet. -/
def sampleView (s : State) : Option (List (String × ViewValue (List Byte))) :=
  toPlainView sampleFormat [] (fun inner _ => inner.token) s

/-- R204, R207: raw values, the collaborator's view of INNER, the empty description. -/
theorem test_plain_view :
    (sampleView (delegatedPacket none)).bind (List.lookup "did") = some (.number 0x41) ∧
    (sampleView (delegatedPacket none)).bind (List.lookup "info") = some (.text "") ∧
    (sampleView (delegatedPacket none)).bind (List.lookup "udw") = some (.delegated []) := by decide +kernel

/-- With no packet, and in the Faulted condition, RDREG returns no packet register and there is no view (log 16). -/
theorem test_no_view : (sampleView State.reset).isNone = true ∧
    (sampleView { delegatedPacket none with fault := 1 }).isNone = true := by decide +kernel

/-! ### Witnesses: for each statement with hypotheses, a state and operands that meet all of them together -/

theorem wit_decode_of_encode :
    [Instr.cinit (2 ^ 24 - 1), .rd 127, .sk (2 ^ 24 - 1), .encb 0xFF, .decb 0x3FF, .isdel 0xFF 0xFF, .padlen 0xFF, .pkdec,
      .pkenc, .rdreg 0xFF, .wrreg 0xFF 0xFFFF, .rdu 255, .wru 255 0x3FF, .rst].all Instr.wf = true := by decide

theorem wit_encode_of_decoded : decode 0x0D0FFC01#32 = .error (.strayBits 0x0D) ∧ decode 0x0D03FFFF#32 = .ok (.wru 255 0x3FF) := by
  decide

/-- For each row of the table the least and the greatest word of R81 fit it. -/
theorem wit_word_fits_a_row :
    (opcodeTable.all fun r => r.fits r.pattern && r.fits (r.pattern ||| ~~~r.mask)) = true := by decide +kernel

theorem wit_illegal_word :
    ([0x00FFFFFF#32, 0x0F000000#32, 0xFFFFFFFF#32, 0x02000080#32].all fun w => opcodeTable.all fun r => !r.fits w) = true ∧
    (State.reset.withFetchWord 32 0x0F000000).fault = 0 ∧
    (State.reset.withFetchWord 32 0x0F000000).host = [.command 0x0F000000#32] := by decide +kernel

theorem wit_step_runs : (State.reset.withFetchWord 32 0x02000041).host = [.command 0x02000041#32] ∧
    decode 0x02000041#32 = .ok (.rd 65) := by decide

theorem wit_idle : State.reset.host = [] := rfl

theorem wit_faulting_command : exec (.rd 1) State.reset = .next (nextOf (exec (.rd 1) State.reset)) ∧
    State.reset.fault = 0 ∧ (nextOf (exec (.rd 1) State.reset)).fault ≠ 0 :=
  ⟨exec_nextOf _ _, by decide, by decide⟩

/-- The commands at the edges of the exception: registers 0x0F and 0x16 are no status registers. -/
theorem wit_faulted_framer : faultedState.fault ≠ 0 ∧ Instr.cinit 0 ≠ .rst ∧ (∀ r, Instr.cinit 0 ≠ .rdreg r) ∧
    ¬ (0x10 ≤ (0x0F#8).toNat ∧ (0x0F#8).toNat ≤ 0x15) ∧ ¬ (0x10 ≤ (0x16#8).toNat ∧ (0x16#8).toNat ≤ 0x15) ∧
    (faultedState.withFetchWord 32 0xFF000000).host = [.command 0xFF000000#32] ∧
    (∀ r ∈ opcodeTable, r.fits 0xFF000000#32 = false) :=
  ⟨by decide, by decide, nofun, by decide, by decide, by decide, by decide⟩

/-- Each clause of OnlyResetClearsTheFault: RST, the hardware reset, and a command that is neither. -/
theorem wit_only_reset :
    gives (step (faultedState.withFetchWord 32 0x0E000000)) (fun t => t.fault == 0) = true ∧
    gives (step { faultedState with host := [.hardReset] }) (fun t => t.fault == 0) = true ∧
    gives (step (faultedState.withFetchWord 32 0x01000000)) (fun t => t.fault == 1) = true := by decide +kernel

/-- A state of the invariant that is not the reset state: a cursor, cells in BUF and in OUT, a packet encoded. -/
def invState : State :=
  { State.reset with
    buf := [(3, true), (7, false)], len := 8, pos := 3, out := BitMem.ofBits 0 [true, false], olen := 2
    pstate := .encoded, fault := 8, finfo := 1, host := [.writeBuf 5 [true], .copyOut, .command 0x02000003#32] }

theorem wit_invariant : invState.Inv ∧ gives (step invState) (fun t => t.buf == [(3, true), (5, true), (7, false)]) = true :=
  ⟨⟨by decide, by decide, by decide, by decide, by decide, by decide, by decide, by decide, by decide, by decide, by decide⟩, by decide⟩

theorem wit_hard_reset : ({ faultedState with host := [.hardReset, .copyOut] } : State).host = .hardReset :: [.copyOut] := rfl

theorem wit_exec_next : exec (.encb 0) State.reset = .next (nextOf (exec (.encb 0) State.reset)) := exec_nextOf _ _

/-- For CursorMovesForward: the invariant, and a command other than CINIT and RST that moves the cursor. -/
theorem wit_cursor_moves : { invState with fault := 0, finfo := 0 }.Inv ∧
    exec (.sk 5) { invState with fault := 0, finfo := 0 } =
      .next (nextOf (exec (.sk 5) { invState with fault := 0, finfo := 0 })) ∧
    (nextOf (exec (.sk 5) { invState with fault := 0, finfo := 0 })).pos = 8 ∧ Instr.sk 5 ≠ .rst ∧
    ∀ n, Instr.sk 5 ≠ .cinit n :=
  ⟨⟨by decide, by decide, by decide, by decide, by decide, by decide, by decide, by decide, by decide, by decide, by decide⟩,
    exec_nextOf _ _, by decide, by decide, fun n h => by cases h⟩

/-- For the two statements on what PKDEC and reset alone write: a command that writes the descriptor, and one that writes
a packet register other than CS. -/
theorem wit_payload_kind : exec (.wrreg 0x0A 0x1234) (delegatedPacket none) =
      .next (nextOf (exec (.wrreg 0x0A 0x1234) (delegatedPacket none))) ∧
    (nextOf (exec (.wrreg 0x0A 0x1234) (delegatedPacket none))).payload = .delegated 0x1234 ⟨[]⟩ ∧
    Instr.wrreg 0x0A 0x1234 ≠ .pkdec ∧ Instr.wrreg 0x0A 0x1234 ≠ .rst ∧ ∀ v, Instr.wrreg 0x0A 0x1234 ≠ .wrreg 0x08 v :=
  ⟨exec_nextOf _ _, by decide, by decide, by decide, fun v h => by
    have := (Instr.wrreg.inj h).1
    revert this
    decide⟩

/-- Every clause of PacketLifecycle is reached: decode, encode, a fault that leaves PSTATE. -/
theorem wit_lifecycle :
    gives (exec .pkdec (packetA 128)) (fun t => t.fault == 0) = true ∧
    gives (exec .pkenc rawPacket) (fun t => t.fault == 0) = true ∧
    gives (exec .pkenc State.reset) (fun t => t.fault != 0) = true := by decide +kernel

theorem wit_empty_unseen : (packetA 128).pstate = .empty ∧
    exec .pkdec (packetA 128) = .next (nextOf (exec .pkdec (packetA 128))) ∧
    (nextOf (exec .pkdec (packetA 128))).pstate ≠ .empty := ⟨rfl, exec_nextOf _ _, by decide +kernel⟩

/-- A host write up to the last bit of BUF, and one past it. -/
theorem wit_host_write :
    4094 + [true, false].length ≤ State.reset.params.bufBits.toNat ∧
    State.reset.params.bufBits.toNat < 4095 + [true, false].length := by decide

/-- CINIT at the capacity and one past it. -/
theorem wit_cinit : State.reset.fault = 0 ∧ 4096 ≤ State.reset.params.bufBits.toNat ∧
    State.reset.params.bufBits.toNat < 4097 := by decide

/-- RD and SK with exactly as many bits left as they need, and with one fewer. -/
theorem wit_rd_sk : (holding [0] 64).fault = 0 ∧ 64 ≤ (holding [0] 64).left ∧ (holding [0] 63).left < 64 ∧
    (holding [0] 10).left = 10 := by decide +kernel

theorem wit_cursor_frame : exec (.rd 64) (holding [0, 0] 64) = .next (nextOf (exec (.rd 64) (holding [0, 0] 64))) :=
  exec_nextOf _ _

theorem wit_reading_frame : exec (.rdu 254) rawPacket = .next (nextOf (exec (.rdu 254) rawPacket)) ∧
    exec (.padlen 0) State.reset = .next (nextOf (exec (.padlen 0) State.reset)) := ⟨exec_nextOf _ _, exec_nextOf _ _⟩

/-- A buffer that holds the header encoding of V18's second row. -/
theorem wit_header_of_encode :
    0 + 62 ≤ (holding [0xFFFFFFD5, 0x98260404] 62).len.toNat ∧
    (holding [0xFFFFFFD5, 0x98260404] 62).bufBits 0 62 = hdrEncode 1 1 0x55 0x60 0x60 1 := by decide +kernel

theorem wit_pkdec_raw : (packetA 102).fault = 0 ∧ ¬ ((packetA 102).field 34 8 = 0x41 ∧ (packetA 102).field 44 8 = 0x07) ∧
    72 + 10 * (packetA 102).field 54 8 = (packetA 102).left := by decide +kernel

theorem wit_pkdec_delegated : (packetE 132).fault = 0 ∧ (packetE 132).field 34 8 = 0x41 ∧ (packetE 132).field 44 8 = 0x07 ∧
    2 ≤ (packetE 132).field 54 8 ∧ 72 + 10 * (packetE 132).field 54 8 = (packetE 132).left ∧
    pcDecode (packetE 132).params
      ((List.range ((packetE 132).field 54 8 - 2)).map fun i => (packetE 132).payloadByte (i + 2))
      = some ⟨[0xFF, 0xFF, 0x00, 0x0E]⟩ := by decide +kernel

theorem wit_pkdec_short : (packetA 61).fault = 0 ∧ (packetA 61).left = 61 ∧ (packetA 0).left = 0 := by decide +kernel

/-- The clauses of PkdecFaultsInWireOrder on the raw path, each at the greatest length it covers. -/
theorem wit_pkdec_faults_raw :
    62 + 10 * (packetA 91).field 54 8 = (packetA 91).left + 1 ∧ 62 + 10 * (packetA 92).field 54 8 = (packetA 92).left ∧
    72 + 10 * (packetA 101).field 54 8 = (packetA 101).left + 1 := by decide +kernel

/-- The clauses of PkdecFaultsInWireOrder on the delegated path: truncated, no descriptor (packet G1), a PayloadCodec that
rejects the bytes, and a truncated trailer. -/
theorem wit_pkdec_faults_delegated :
    (packetE 121).left < 62 + 10 * (packetE 121).field 54 8 ∧
    (holding [0x00900000, 0x90507405, 0x08AA8000] 72).field 54 8 = 1 ∧
    62 + 10 * 1 ≤ (holding [0x00900000, 0x90507405, 0x08AA8000] 72).left ∧
    (packetNone 82).field 54 8 = 2 ∧ 62 + 10 * 2 ≤ (packetNone 82).left ∧ pcDecode (packetNone 82).params [] = none ∧
    62 + 10 * (packetE 122).field 54 8 = (packetE 122).left ∧
    72 + 10 * (packetE 131).field 54 8 = (packetE 131).left + 1 := by decide +kernel

theorem wit_pkdec_completes : exec .pkdec (packetE 160) = .next (nextOf (exec .pkdec (packetE 160))) ∧
    (packetE 160).fault = 0 ∧ (nextOf (exec .pkdec (packetE 160))).fault = 0 ∧
    exec .pkdec (packetA 101) = .next (nextOf (exec .pkdec (packetA 101))) ∧
    (nextOf (exec .pkdec (packetA 101))).fault ≠ 0 :=
  ⟨exec_nextOf _ _, rfl, by decide +kernel, exec_nextOf _ _, by decide +kernel⟩

/-- Packet A and packet A with its three pairs of protection bits, its inverse bit and its padding inverted: they agree on
every bit PKDEC keeps, up to the end of the packet (R78), and both buffers hold no cell from there on. -/
theorem wit_unchecked_bits :
    ((List.range 128).all fun off => !isKeptBit false 3 off ||
      (holding [0x00900000, 0x9860140E, 0x00406FFE, 0xAFFFFFFF] 128).bufBit off == (packetA 128).bufBit off) = true ∧
    ((List.range 128).any fun off =>
      (holding [0x00900000, 0x9860140E, 0x00406FFE, 0xAFFFFFFF] 128).bufBit off != (packetA 128).bufBit off) = true := by
  decide +kernel

theorem wit_pkenc_raw : rawPacket.fault = 0 ∧ rawPacket.pstate ≠ .empty ∧ rawPacket.payload = .raw 0x3FF ∧
    (0x3FF#2550).toNat < 2 ^ (10 * rawPacket.wc.toNat) ∧ 2 ^ (10 * 1) ≤ (0x400#2550).toNat := by decide +kernel

/-- The longest delegated payload that encodes, and one byte more. -/
theorem wit_pkenc_delegated :
    (delegatedPacket (some (List.replicate 509 0))).fault = 0 ∧
    (delegatedPacket (some (List.replicate 509 0))).pstate ≠ .empty ∧
    pcEncode (delegatedPacket (some (List.replicate 509 0))).params ⟨[]⟩ = some (List.replicate 509 0) ∧
    (2 + (List.replicate 509 (0 : Byte)).length) / 2 ≤ 255 ∧ 255 < (2 + (List.replicate 510 (0 : Byte)).length) / 2 ∧
    pcEncode (delegatedPacket none).params ⟨[]⟩ = none := by
  refine ⟨rfl, by decide, rfl, ?_, ?_, rfl⟩
  · rw [List.length_replicate]
  · rw [List.length_replicate]
    omega

theorem wit_pkenc_completes : exec .pkenc rawPacket = .next (nextOf (exec .pkenc rawPacket)) ∧
    (nextOf (exec .pkenc rawPacket)).fault = 0 ∧ exec .pkenc State.reset = .next (nextOf (exec .pkenc State.reset)) ∧
    (nextOf (exec .pkenc State.reset)).fault ≠ 0 ∧
    exec .pkenc (delegatedPacket (some [0xFF])) = .next (nextOf (exec .pkenc (delegatedPacket (some [0xFF])))) ∧
    (nextOf (exec .pkenc (delegatedPacket (some [0xFF])))).fault = 0 ∧ (delegatedPacket (some [0xFF])).utag ≠ 0 :=
  ⟨exec_nextOf _ _, by decide +kernel, exec_nextOf _ _, by decide +kernel, exec_nextOf _ _, by decide +kernel, by decide⟩

/-- For RawPacketRoundTrip: packet A decoded. -/
theorem wit_raw_round_trip : exec .pkdec (packetA 128) = .next (nextOf (exec .pkdec (packetA 128))) ∧
    (packetA 128).fault = 0 ∧ (nextOf (exec .pkdec (packetA 128))).fault = 0 ∧
    (nextOf (exec .pkdec (packetA 128))).utag = 0 ∧
    72 + 10 * (nextOf (exec .pkdec (packetA 128))).wc.toNat + padLen (nextOf (exec .pkdec (packetA 128))).wc.toNat ≤
      (nextOf (exec .pkdec (packetA 128))).params.bufBits.toNat :=
  ⟨exec_nextOf _ _, rfl, by decide +kernel, by decide +kernel, by decide +kernel⟩

/-- For DelegatedPacketRoundTrip: the packet of V31, whose four bytes come back as one (V32). -/
theorem wit_delegated_round_trip :
    (delegatedPacket (some [0xFF, 0xFF, 0x00, 0x0E])).pstate ≠ .empty ∧
    pcEncode (delegatedPacket (some [0xFF, 0xFF, 0x00, 0x0E])).params ⟨[]⟩ = some [0xFF, 0xFF, 0x00, 0x0E] ∧
    pcDecode (delegatedPacket (some [0xFF, 0xFF, 0x00, 0x0E])).params
      (([0xFF, 0xFF, 0x00, 0x0E] : List Byte).take ((2 + 4) / 2 - 2)) = some ⟨[0xFF]⟩ ∧
    72 + 10 * (2 + 4) + padLen ((2 + 4) / 2) ≤
      (delegatedPacket (some [0xFF, 0xFF, 0x00, 0x0E])).params.bufBits.toNat := by decide +kernel

/-- For ShortDelegatedPacketIsNotDecodedAgain: the packet of V34, which has the descriptor alone. -/
theorem wit_short_delegated :
    (delegatedPacket (some [])).pstate ≠ .empty ∧ (delegatedPacket (some [])).fault = 0 ∧
    (delegatedPacket (some [])).did = 0x41 ∧ (delegatedPacket (some [])).sdid = 0x07 ∧
    pcEncode (delegatedPacket (some [])).params ⟨[]⟩ = some [] ∧
    72 + 10 * (2 + 1) + padLen 1 ≤ (delegatedPacket (some [])).params.bufBits.toNat := by decide +kernel

theorem wit_registers : rawPacket.fault = 0 ∧ rawPacket.pstate ≠ .empty ∧ rawPacket.payload = .raw 0x3FF ∧
    (delegatedPacket none).payload = .delegated 0x0801 ⟨[]⟩ ∧ (delegatedPacket none).pstate ≠ .empty := by decide +kernel

/-- The edges of the register map: 0x0B to 0x0F and 0x16 on are reserved, 0x0A and 0x10 to 0x15 are not. -/
theorem wit_register_edges :
    [0x0B, 0x0F, 0x16, 0xFF].all (fun r => Reg.ofAddr (BitVec.ofNat 8 r) == none) = true ∧
    [0x00, 0x08, 0x09, 0x0A, 0x10, 0x15].all (fun r => Reg.ofAddr (BitVec.ofNat 8 r) != none) = true ∧
    rawPacket.utag = 0 ∧ State.reset.pstate = .empty ∧ 2 ^ 9 ≤ (0x200#16).toNat := by decide

/-- WRREG at the greatest value of each width it accepts. -/
theorem wit_wrreg_widths : (0x1#16).toNat < 2 ^ 1 ∧ (0x7FF#16).toNat < 2 ^ 11 ∧ (0xFFF#16).toNat < 2 ^ 12 ∧
    (0x7F#16).toNat < 2 ^ 7 ∧ (0xFF#16).toNat < 2 ^ 8 ∧ (0x1FF#16).toNat < 2 ^ 9 := by decide

theorem wit_wrreg_frame : exec (.wrreg 0x05 0x41) rawPacket = .next (nextOf (exec (.wrreg 0x05 0x41) rawPacket)) ∧
    exec (.wrreg 0x0A 7) (delegatedPacket none) = .next (nextOf (exec (.wrreg 0x0A 7) (delegatedPacket none))) :=
  ⟨exec_nextOf _ _, exec_nextOf _ _⟩

/-- RDU and WRU: the last digit, the first index that is none, no packet, a delegated payload. -/
theorem wit_digits : 254 < 255 ∧ rawPacket.fault = 0 ∧ State.reset.pstate = .empty ∧ (delegatedPacket none).utag = 1 ∧
    (delegatedPacket none).pstate ≠ .empty ∧ rawPacket.payload = .raw 0x3FF := by decide +kernel

theorem wit_wru_frame : exec (.wru 254 0x3FF) rawPacket = .next (nextOf (exec (.wru 254 0x3FF) rawPacket)) := exec_nextOf _ _

/-- Each clause of DescriptionLookup: no entry, a description, a table by SDID. -/
theorem wit_lookup :
    ([(0x41, .bySdid [(0x07, "a")]), (0x60, .description "b")] : DescTable).lookup 0x99 = none ∧
    ([(0x41, .bySdid [(0x07, "a")]), (0x60, .description "b")] : DescTable).lookup 0x60 = some (.description "b") ∧
    ([(0x41, .bySdid [(0x07, "a")]), (0x60, .description "b")] : DescTable).lookup 0x41 = some (.bySdid [(0x07, "a")]) := by
  decide

/-- RDP (R85): ten bits at the cursor of an unfaulted framer. -/
theorem wit_rdp : { packetA 128 with pos := 118 }.fault = 0 ∧ { packetA 128 with pos := 118 }.left = 10 := by decide +kernel

end Sys2Proof.Tests
end

section
/-! PROOFS. The scope of the model (spec/00_scope.md): every step keeps `State.Inv`, every command is answered, and a read
of BUF has its first bit as its most significant. -/

namespace Sys2Proof.Machine

variable {s t u : State}

/-! ### What keeps the invariant: one lemma per update of the state -/

theorem State.Inv.withHost (h : s.Inv) (rest : List HostAction) : { s with host := rest }.Inv := { h with }

theorem State.Inv.completed (h : s.Inv) (dout : Nat) : (s.completed dout).Inv := { h with }

theorem State.Inv.turnAway (h : s.Inv) : s.turnAway.Inv := { h with }

theorem State.Inv.withPayload (h : s.Inv) (payload : Payload) : { s with payload := payload }.Inv := { h with }

theorem State.Inv.faulted (h : s.Inv) (c : Cause) (info : Nat) : (s.faulted c.code info).Inv :=
  { h with
    fault_le := c.code_le
    finfo_zero := fun h0 => absurd h0 c.code_ne_zero }

theorem State.Inv.setPos (h : s.Inv) {p : Nat} (hp : p ≤ s.len.toNat) : (s.setPos p).Inv :=
  { h with pos_le_len := (Nat.mod_le p (2 ^ 24)).trans hp }

/-- CINIT's write of the cursor (40_bitcursor.md rule R102). -/
theorem State.Inv.openCursor (h : s.Inv) {n : Nat} (hn : n ≤ s.params.bufBits.toNat) :
    { s with len := BitVec.ofNat 24 n, pos := 0 }.Inv :=
  { h with
    pos_le_len := Nat.zero_le _
    len_le_bufBits := (Nat.mod_le n (2 ^ 24)).trans hn }

theorem State.Inv.materialise (h : s.Inv) (hd : Header) (payload : Payload) (cs : BitVec 9) :
    (s.materialise hd payload cs).Inv :=
  { h with olen_zero := fun he => nomatch he }

theorem State.Inv.writeReg (h : s.Inv) (reg : Reg) (v : Nat) : (s.writeReg reg v).Inv := by
  cases reg
  case desc =>
    simp only [State.writeReg]
    split
    · exact h.withPayload _
    · exact h
  all_goals exact { h with }

/-- An output no longer than OUT leaves OUT and OLEN in step (10_state.md rule R31). -/
theorem State.Inv.writeOut (h : s.Inv) {bits : Bits} (hp : s.pstate ≠ .empty) (hl : bits.length ≤ Config.outBits) :
    (s.writeOut bits).Inv := by
  have holen : (s.writeOut bits).olen.toNat = bits.length := by
    simp only [State.writeOut_olen, BitVec.toNat_ofNat]
    exact Nat.mod_eq_of_lt (lt_of_le_of_lt hl (by decide))
  exact { h with
    out_cells := by simp
    out_length := by rw [holen]; simp
    olen_le := by rw [holen]; exact hl
    olen_zero := fun he => absurd he hp }

/-- A completed PKENC (44_packet.md rules R170, R171). -/
theorem State.Inv.encodedState (h : s.Inv) {payload : Bits} {wc' : Nat} (he : udwEncode s = .ok (payload, wc')) :
    (encodedState s payload wc').Inv := by
  have hregs : { s with
      line := Config.lineSentinel, hoff := Config.hoffSentinel, wc := BitVec.ofNat 8 wc', pstate := .encoded }.Inv :=
    { h with olen_zero := fun hc => nomatch hc }
  exact hregs.writeOut (fun hc => nomatch hc) (length_packetBits_le he)

theorem State.Inv.softReset (h : s.Inv) : s.softReset.Inv :=
  { h with
    pos_le_len := le_rfl
    len_le_bufBits := Nat.zero_le _
    out_cells := rfl
    out_length := rfl
    olen_le := Nat.zero_le _
    fault_le := Nat.zero_le _
    finfo_zero := fun _ => rfl
    olen_zero := fun _ => rfl }

theorem State.Inv.hardReset (h : s.Inv) : s.hardReset.Inv :=
  { h.softReset with
    buf_wf := rfl
    buf_below := fun _ hkb => nomatch hkb }

/-- A write to cells that BUF has (20_memory.md rule R50). -/
theorem State.Inv.writeBuf (h : s.Inv) {addr : Nat} {bits : Bits}
    (hb : addr + bits.length ≤ s.params.bufBits.toNat) : { s with buf := s.buf.setBits addr bits }.Inv :=
  { h with
    buf_wf := BitMem.wf_setBits addr bits h.buf_wf
    buf_below := fun kb hkb => by
      rcases BitMem.mem_setBits hkb with ⟨-, hlt⟩ | hmem
      · exact lt_of_lt_of_le hlt hb
      · exact h.buf_below kb hmem }

/-! ### Every command and every host action keeps the invariant -/

/-- A position that advances by no more than the bits remaining is still within LEN. -/
theorem State.Inv.pos_add_le (h : s.Inv) {n : Nat} (hn : n ≤ s.left) : s.pos.toNat + n ≤ s.len.toNat := by
  have hpos := h.pos_le_len
  unfold State.left at hn
  omega

theorem instrBody_keeps_inv {i : Instr} {v : Nat} (h : s.Inv) (hb : instrBody i s = .ok (u, v)) : u.Inv := by
  cases i with
  | cinit n =>
    obtain ⟨hn, rfl, -⟩ := cinitBody_ok hb
    exact h.openCursor hn
  | rd n =>
    obtain ⟨-, -, hn, rfl, -⟩ := rdBody_ok hb
    exact h.setPos (h.pos_add_le hn)
  | sk n =>
    obtain ⟨hn, rfl, -⟩ := skBody_ok hb
    exact h.setPos (h.pos_add_le hn)
  | encb b => cases hb; exact h
  | decb w => cases hb; exact h
  | isdel did sdid => cases hb; exact h
  | padlen b => cases hb; exact h
  | pkdec =>
    obtain ⟨payload, p, -, hn, rfl, -, -⟩ := pkdecBody_ok hb
    exact (h.materialise _ _ _).setPos (h.pos_add_le hn)
  | pkenc =>
    obtain ⟨payload, wc', -, he, rfl, -⟩ := pkencBody_ok hb
    exact h.encodedState he
  | rdreg r =>
    obtain ⟨reg, -, -, -, rfl, -⟩ := rdregBody_ok hb
    exact h
  | wrreg r w =>
    obtain ⟨reg, -, -, -, -, -, rfl, -⟩ := wrregBody_ok hb
    exact h.writeReg reg _
  | rdu k =>
    obtain ⟨x, -, -, -, rfl, -⟩ := rduBody_ok hb
    exact h
  | wru k d =>
    obtain ⟨x, -, -, -, rfl, -⟩ := wruBody_ok hb
    exact h.withPayload _
  | rst => cases hb; exact h.softReset

theorem exec_keeps_inv {i : Instr} (h : s.Inv) (he : exec i s = .next t) : t.Inv := by
  obtain ⟨u, v, hb, rfl, -⟩ | ⟨r, -, rfl, -⟩ | ⟨-, -, rfl⟩ := exec_cases he
  · exact (instrBody_keeps_inv h hb).completed v
  · exact h.faulted r.cause r.info
  · exact h.turnAway

/-- A command word: a legal one runs its command, an illegal one faults or is turned away (60_exceptions.md rule R237). -/
theorem runWord_keeps_inv {w : CmdWord} (h : s.Inv) (hw : runWord w s = .next t) : t.Inv := by
  unfold runWord at hw
  split at hw
  · exact exec_keeps_inv h hw
  · by_cases h0 : s.fault = 0
    · rw [command_of_fault_zero h0, complete_error] at hw
      cases hw
      exact h.faulted .illegalCommand _
    · rw [command_of_fault_ne h0] at hw
      cases hw
      exact h.turnAway

theorem hostWrite_keeps_inv {addr : Nat} {bits : Bits} (h : s.Inv) (hw : hostWrite addr bits s = .next t) : t.Inv := by
  unfold hostWrite at hw
  split at hw
  · rename_i hb
    cases hw
    exact h.writeBuf hb
  · cases hw

theorem hostAct_keeps_inv {a : HostAction} (h : s.Inv) (ha : hostAct a s = .next t) : t.Inv := by
  cases a with
  | command w => exact runWord_keeps_inv h ha
  | writeBuf addr bits => exact hostWrite_keeps_inv h ha
  | copyOut => exact hostWrite_keeps_inv h ha
  | hardReset => cases ha; exact h.hardReset

theorem step_keeps_inv (h : s.Inv) (hs : step s = .next t) : t.Inv := by
  unfold step at hs
  split at hs
  · cases hs
    exact h
  · exact hostAct_keeps_inv (h.withHost _) hs

/-- Settles O12, by the host's actions and, for a command, the three ways it is answered. -/
theorem stepKeepsTheInvariant : Obligations.StepKeepsTheInvariant := fun _ _ => step_keeps_inv

/-- Settles O8, by the three ways a command is answered: it completes, it faults, or it is turned away. -/
theorem everyCommandIsAnswered : Obligations.EveryCommandIsAnswered := by
  intro i s
  obtain ⟨t, ht⟩ := exec_next i s
  obtain ⟨u, v, -, rfl, -⟩ | ⟨r, -, rfl, -⟩ | ⟨h0, -, rfl⟩ := exec_cases ht
  · exact ⟨_, _, ht, rfl, .inl rfl⟩
  · exact ⟨_, _, ht, rfl, .inr ⟨rfl, r.cause.code_ne_zero, rfl⟩⟩
  · exact ⟨_, _, ht, rfl, .inr ⟨rfl, h0, rfl⟩⟩

/-- Settles O22: the value of a bit list has the list's first bit as its most significant. -/
theorem readIsMostSignificantBitFirst : Obligations.ReadIsMostSignificantBitFirst := by
  intro s a n
  refine ⟨s.memRead_lt a n, fun i hi => ?_⟩
  have hbit := testBit_val (s.bufBits a n) i (by simpa using hi)
  rwa [State.getElem_bufBits, State.length_bufBits] at hbit

end Sys2Proof.Machine
end

section
/-! PROOFS. The rules of the state's commands that the statements of spec/10_state.md share: the host's next action, the
three ways a command ends, what a command may write, the register and digit operands, and the packet lifecycle. -/

namespace Sys2Proof.Machine

variable {s t u : State} {i : Instr}

/-! ### One step of the host -/

theorem step_of_host_cons {a : HostAction} {rest : List HostAction} (h : s.host = a :: rest) :
    step s = hostAct a { s with host := rest } := by
  rw [step, h]

theorem runWord_of_decode {w : CmdWord} (h : decode w = .ok i) (s : State) : runWord w s = exec i s := by
  rw [runWord, h]

theorem ifClear_ok {n : Nat} {op : Byte} {stray : BitVec n} {i j : Instr} (h : ifClear op stray i = .ok j) :
    stray = 0 ∧ j = i := by
  unfold ifClear at h
  split at h
  · cases h
    exact ⟨‹_›, rfl⟩
  · cases h

/-- The opcode of the command a word decodes to (30_encoding.md rule R81). -/
theorem opcode_of_decode {w : CmdWord} (h : decode w = .ok i) : i.opcode.toNat = (CmdWord.op w).toNat := by
  unfold decode at h
  dsimp only at h
  split at h
  case h_15 => cases h
  case h_1 hop | h_3 hop | h_11 hop => cases h; exact hop.symm
  all_goals
    rename_i hop
    obtain ⟨-, rfl⟩ := ifClear_ok h
    exact hop.symm

/-- RST has one word (30_encoding.md rule R81). -/
theorem decode_eq_rst_iff {w : CmdWord} : decode w = .ok .rst ↔ w = 0x0E000000#32 := by
  refine ⟨fun h => ?_, fun h => by rw [h]; rfl⟩
  have hop : CmdWord.op w = 0x0E#8 := BitVec.eq_of_toNat_eq (opcode_of_decode h).symm
  simp only [decode, hop] at h
  have harg : CmdWord.arg w = 0 := (ifClear_ok h).1
  rw [← op_append_arg w, hop, harg]
  rfl

/-! ### How a command ends -/

/-- A command that leaves FAULT zero has completed (60_exceptions.md rules R230, R231). -/
theorem exec_completed (he : exec i s = .next t) (h0 : t.fault = 0) :
    ∃ u v, instrBody i s = .ok (u, v) ∧ t = u.completed v := by
  obtain ⟨u, v, hb, rfl, -⟩ | ⟨r, -, rfl, -⟩ | ⟨hne, -, rfl⟩ := exec_cases he
  · exact ⟨u, v, hb, rfl⟩
  · exact absurd h0 r.cause.code_ne_zero
  · exact absurd h0 hne

theorem checkReg_of_status {r : BitVec 8} {reg : Reg} (h : reg.isStatus = true) : checkReg s r reg = .ok reg := by
  unfold checkReg
  rw [if_neg (by simp [h]), if_neg]
  rintro ⟨rfl, -⟩
  cases h

theorem checkReg_of_packet {r : BitVec 8} {reg : Reg} (hp : s.pstate ≠ .empty) (hd : reg = .desc → s.utag ≠ 0) :
    checkReg s r reg = .ok reg := by
  unfold checkReg
  rw [if_neg (fun h => hp h.2), if_neg (fun h => hd h.1 h.2)]

theorem checkReg_of_empty {r : BitVec 8} {reg : Reg} (hp : s.pstate = .empty) (h : reg.isStatus = false) :
    checkReg s r reg = .error ⟨.noPacket, r.toNat⟩ :=
  if_pos ⟨h, hp⟩

theorem rdregBody_of_checkReg {r : BitVec 8} {reg : Reg} (hr : Reg.ofAddr r = some reg)
    (hc : checkReg s r reg = .ok reg) : rdregBody r s = .ok (s, s.readReg reg) := by
  rw [rdregBody, readOperand, hr]
  dsimp only
  rw [hc]
  rfl

/-- A status register's address names a status register (10_state.md rule R34). -/
theorem ofAddr_of_isStatusAddr {r : BitVec 8} (h : isStatusAddr r = true) :
    ∃ reg, Reg.ofAddr r = some reg ∧ reg.isStatus = true := by
  obtain ⟨hnone, hsome⟩ := Reg.ofAddr_spec r
  cases hr : Reg.ofAddr r with
  | none =>
    have hrange := hnone.mp hr
    simp only [isStatusAddr, Bool.and_eq_true, decide_eq_true_eq] at h
    omega
  | some reg => exact ⟨reg, rfl, (hsome reg hr).1.trans h⟩

theorem exec_rdreg_of_status {r : BitVec 8} {reg : Reg} (hr : Reg.ofAddr r = some reg) (hs : reg.isStatus = true) :
    exec (.rdreg r) s = .next (s.completed (s.readReg reg)) := by
  have hruns : runsFaulted (.rdreg r) = true := (((Reg.ofAddr_spec r).2 reg hr).1).symm.trans hs
  rw [exec_eq, if_pos (.inr hruns), instrBody, rdregBody_of_checkReg hr (checkReg_of_status hs), complete_ok]

theorem runsFaulted_cases (h : runsFaulted i = true) : i = .rst ∨ ∃ r, i = .rdreg r ∧ isStatusAddr r = true := by
  cases i with
  | rst => exact .inl rfl
  | rdreg r => exact .inr ⟨r, rfl, h⟩
  | _ => cases h

/-- In the Faulted condition every command but RST writes the response alone (60_exceptions.md rule R231). -/
theorem exec_of_faulted (he : exec i s = .next t) (hf : s.fault ≠ 0) (hi : i ≠ .rst) :
    ∃ a, t = { s with resp := a } := by
  by_cases hr : runsFaulted i = true
  · obtain rfl | ⟨r, rfl, hst⟩ := runsFaulted_cases hr
    · exact absurd rfl hi
    · obtain ⟨reg, hreg, hstatus⟩ := ofAddr_of_isStatusAddr hst
      rw [exec_rdreg_of_status hreg hstatus] at he
      cases he
      exact ⟨_, rfl⟩
  · rw [exec_eq, if_neg (not_or.mpr ⟨hf, hr⟩)] at he
    cases he
    exact ⟨_, rfl⟩

/-! ### What a command may write -/

/-- The writes a command can make, beside FAULT, FINFO and the response (40_bitcursor.md, 44_packet.md, 45_system.md); every
command can make none, since it can fault or be turned away. -/
inductive Writes (s : State) : Instr → State → Prop where
  | nothing {i : Instr} : Writes s i s
  | reset : Writes s .rst s.softReset
  | openCursor {n : Nat} (hn : n ≤ s.params.bufBits.toNat) :
      Writes s (.cinit n) { s with len := BitVec.ofNat 24 n, pos := 0 }
  | read {n : Nat} (hn : n ≤ s.left) : Writes s (.rd n) (s.setPos (s.pos.toNat + n))
  | skip {n : Nat} (hn : n ≤ s.left) : Writes s (.sk n) (s.setPos (s.pos.toNat + n))
  | decoded {h : Header} {payload : Payload} {cs : BitVec 9} {n : Nat} (hn : n ≤ s.left) :
      Writes s .pkdec ((s.materialise h payload cs).setPos (s.pos.toNat + n))
  | encoded {payload : Bits} {wc' : Nat} : Writes s .pkenc (encodedState s payload wc')
  | register {r : BitVec 8} {w : BitVec 16} {reg : Reg} (hr : Reg.ofAddr r = some reg) :
      Writes s (.wrreg r w) (s.writeReg reg w.toNat)
  | digit {k : Nat} {d : BitVec 10} {x y : BitVec 2550} (hx : s.payload = .raw x) :
      Writes s (.wru k d) { s with payload := .raw y }

theorem writes_of_instrBody {v : Nat} (hb : instrBody i s = .ok (u, v)) : Writes s i u := by
  cases i with
  | cinit n => obtain ⟨hn, rfl, -⟩ := cinitBody_ok hb; exact .openCursor hn
  | rd n => obtain ⟨-, -, hn, rfl, -⟩ := rdBody_ok hb; exact .read hn
  | sk n => obtain ⟨hn, rfl, -⟩ := skBody_ok hb; exact .skip hn
  | pkdec => obtain ⟨payload, p, -, hn, rfl, -, -⟩ := pkdecBody_ok hb; exact .decoded hn
  | pkenc => obtain ⟨payload, wc', -, -, rfl, -⟩ := pkencBody_ok hb; exact .encoded
  | rdreg r => obtain ⟨reg, -, -, -, rfl, -⟩ := rdregBody_ok hb; exact .nothing
  | wrreg r w => obtain ⟨reg, hr, -, -, -, -, rfl, -⟩ := wrregBody_ok hb; exact .register hr
  | rdu k => obtain ⟨x, -, -, -, rfl, -⟩ := rduBody_ok hb; exact .nothing
  | wru k d => obtain ⟨x, -, -, hx, rfl, -⟩ := wruBody_ok hb; exact .digit hx
  | rst => cases hb; exact .reset
  | encb b | decb w | isdel did sdid | padlen b => cases hb; exact .nothing

/-- The frame every command's own frame follows from: beside FAULT, FINFO and the response only its writes are seen. -/
theorem exec_writes (he : exec i s = .next t) :
    ∃ u k n a, Writes s i u ∧ t = { u with fault := k, finfo := n, resp := a } := by
  obtain ⟨u, v, hb, rfl, -⟩ | ⟨r, -, rfl, -⟩ | ⟨-, -, rfl⟩ := exec_cases he
  · exact ⟨u, _, _, _, writes_of_instrBody hb, rfl⟩
  · exact ⟨s, _, _, _, .nothing, rfl⟩
  · exact ⟨s, _, _, _, .nothing, rfl⟩

/-- BUF, the parameters and the model's inputs are written by no command. -/
theorem Writes.inputs (h : Writes s i u) :
    u.buf = s.buf ∧ u.params = s.params ∧ u.host = s.host ∧ u.resets = s.resets := by
  cases h with
  | register hr => simp
  | _ => exact ⟨rfl, rfl, rfl, rfl⟩

/-- A position that advances by no more than the bits remaining does not wrap (40_bitcursor.md rule R106). -/
theorem State.toNat_advance {n : Nat} (hn : n ≤ s.left) :
    (BitVec.ofNat 24 (s.pos.toNat + n)).toNat = s.pos.toNat + n := by
  have hlen := s.len.isLt
  have hpos := s.pos.isLt
  unfold State.left at hn
  rw [BitVec.toNat_ofNat]
  omega

theorem State.pos_le_setPos_advance {n : Nat} (hn : n ≤ s.left) :
    s.pos.toNat ≤ (BitVec.ofNat 24 (s.pos.toNat + n)).toNat := by
  rw [State.toNat_advance hn]
  omega

theorem Writes.cursor (h : Writes s i u) (hr : i ≠ .rst) (hc : ∀ n, i ≠ .cinit n) :
    u.len = s.len ∧ s.pos.toNat ≤ u.pos.toNat := by
  cases h with
  | reset => exact absurd rfl hr
  | openCursor hn => exact absurd rfl (hc _)
  | read hn | skip hn | decoded hn => exact ⟨rfl, State.pos_le_setPos_advance hn⟩
  | register hreg => simp
  | nothing | encoded | digit hx => exact ⟨rfl, le_rfl⟩

/-! ### The payload's kind -/

theorem State.utag_eq_zero_iff : s.utag = 0 ↔ ∃ x, s.payload = .raw x := by
  unfold State.utag
  cases s.payload <;> simp

theorem State.utag_eq_one_iff : s.utag = 1 ↔ ∃ d inner, s.payload = .delegated d inner := by
  unfold State.utag
  cases s.payload <;> simp

theorem State.utag_congr (h : t.payload = s.payload) : t.utag = s.utag := by rw [State.utag, h, State.utag]

/-- A register write leaves the payload, or replaces DESC alone (45_system.md rule R183). -/
theorem State.writeReg_payload (s : State) (reg : Reg) (v : Nat) :
    (s.writeReg reg v).payload = s.payload ∨
    ∃ d d' inner, s.payload = .delegated d inner ∧ (s.writeReg reg v).payload = .delegated d' inner := by
  cases reg
  case desc =>
    simp only [State.writeReg]
    split
    · exact .inr ⟨_, _, _, ‹_›, rfl⟩
    · exact .inl rfl
  all_goals exact .inl rfl

/-- UTAG and INNER (10_state.md rules R24, R26): the payload is as before, or both payloads are raw, or they are delegated
with one INNER. -/
theorem Writes.payload (h : Writes s i u) (hd : i ≠ .pkdec) (hr : i ≠ .rst) :
    u.payload = s.payload ∨ (∃ x y, s.payload = .raw x ∧ u.payload = .raw y) ∨
    ∃ d d' inner, s.payload = .delegated d inner ∧ u.payload = .delegated d' inner := by
  cases h with
  | reset => exact absurd rfl hr
  | decoded hn => exact absurd rfl hd
  | register hreg => exact (s.writeReg_payload _ _).imp_right .inr
  | digit hx => exact .inr (.inl ⟨_, _, hx, rfl⟩)
  | nothing | openCursor hn | read hn | skip hn | encoded => exact .inl rfl

/-! ### The checksum word and PSTATE -/

theorem State.writeReg_cs {reg : Reg} (h : reg ≠ .cs) (v : Nat) : (s.writeReg reg v).cs = s.cs := by
  cases reg
  case cs => exact absurd rfl h
  case desc => simp only [State.writeReg]; split <;> rfl
  all_goals rfl

theorem ofAddr_eq_cs : ∀ r : BitVec 8, Reg.ofAddr r = some .cs → r = 0x08 := by decide

theorem Writes.cs (h : Writes s i u) (hd : i ≠ .pkdec) (hr : i ≠ .rst) (hw : ∀ v, i ≠ .wrreg 0x08 v) : u.cs = s.cs := by
  cases h with
  | reset => exact absurd rfl hr
  | decoded hn => exact absurd rfl hd
  | @register r w reg hreg =>
    refine State.writeReg_cs (fun hcs => ?_) _
    rw [hcs] at hreg
    exact hw w (by rw [ofAddr_eq_cs r hreg])
  | nothing | openCursor hn | read hn | skip hn | encoded | digit hx => rfl

theorem Writes.pstate (h : Writes s i u) (hd : i ≠ .pkdec) (he : i ≠ .pkenc) (hr : i ≠ .rst) : u.pstate = s.pstate := by
  cases h with
  | reset => exact absurd rfl hr
  | decoded hn => exact absurd rfl hd
  | encoded => exact absurd rfl he
  | register hreg => simp
  | nothing | openCursor hn | read hn | skip hn | digit hx => rfl

/-- RST runs in every condition (45_system.md rules R180, R186). -/
theorem exec_rst (s : State) : exec .rst s = .next (s.softReset.completed 0) := rfl

/-- A command that leaves a fault recorded leaves PSTATE (10_state.md rule R27): it raised it, or found it. -/
theorem exec_pstate_of_fault_ne (he : exec i s = .next t) (hf : t.fault ≠ 0) : t.pstate = s.pstate := by
  by_cases h0 : s.fault = 0
  · obtain ⟨u, v, hb, rfl, -⟩ | ⟨r, -, rfl, -⟩ | ⟨hne, -, -⟩ := exec_cases he
    · obtain ⟨-, rfl⟩ | ⟨hu, -⟩ := body_fault hb
      · exact absurd rfl hf
      · exact absurd (hu.trans h0) hf
    · rfl
    · exact absurd h0 hne
  · by_cases hi : i = .rst
    · rw [hi, exec_rst] at he
      cases he
      exact absurd rfl hf
    · obtain ⟨a, rfl⟩ := exec_of_faulted he h0 hi
      rfl

/-! ### The packet a completed PKDEC leaves -/

theorem isDelegated_iff {did sdid : Byte} : isDelegated did sdid = true ↔ did = 0x41 ∧ sdid = 0x07 := by
  simp [isDelegated, Config.delegDid, Config.delegSdid]

/-- The payload PKDEC decodes: delegated exactly for the header's delegated pair, else a raw integer of the payload's
width (43_payloadresolver.md rules R142, R145, R146). -/
theorem udwDecode_payload {h : Header} {p p' : Nat} {payload : Payload} (hd : udwDecode s h p = .ok (payload, p')) :
    (isDelegated h.did h.sdid = true ∧ ∃ d inner, payload = .delegated d inner) ∨
    (isDelegated h.did h.sdid = false ∧ ∃ x, payload = .raw x ∧ x.toNat < 2 ^ (10 * h.wc.toNat)) := by
  obtain ⟨hl, -⟩ := udwDecode_ok hd
  unfold udwDecode at hd
  split at hd
  · rename_i hdel
    rw [udwDecodeDelegated_of_le hl] at hd
    split at hd
    · cases hd
    · split at hd
      · cases hd
        exact .inl ⟨hdel, _, _, rfl⟩
      · cases hd
  · rename_i hraw
    rw [udwDecodeRaw_of_le hl] at hd
    cases hd
    refine .inr ⟨by simpa using hraw, _, rfl, ?_⟩
    rw [BitVec.toNat_ofNat]
    exact (Nat.mod_le _ _).trans_lt (s.memRead_lt p _)

/-! ### The register and digit commands, when they complete -/

theorem exec_rdreg_of_packet {r : BitVec 8} {reg : Reg} (h0 : s.fault = 0) (hp : s.pstate ≠ .empty)
    (hr : Reg.ofAddr r = some reg) (hd : reg = .desc → s.utag ≠ 0) :
    exec (.rdreg r) s = .next (s.completed (s.readReg reg)) :=
  exec_of_body_ok h0 (rdregBody_of_checkReg hr (checkReg_of_packet hp hd))

theorem exec_wrreg_of_packet {r : BitVec 8} {v : BitVec 16} {reg : Reg} (h0 : s.fault = 0) (hp : s.pstate ≠ .empty)
    (hr : Reg.ofAddr r = some reg) (hw : reg.writable = true) (hd : reg = .desc → s.utag ≠ 0)
    (hv : v.toNat < 2 ^ reg.width) :
    exec (.wrreg r v) s = .next ((s.writeReg reg v.toNat).completed 0) := by
  refine exec_of_body_ok h0 ?_
  rw [instrBody, wrregBody, writeOperand, hr]
  dsimp only
  rw [if_pos hw, checkReg_of_packet hp hd, except_bind_ok, if_pos hv]
  rfl

theorem digitOperand_of_raw {k : Nat} {x : BitVec 2550} (hk : k ≤ 254) (hp : s.pstate ≠ .empty)
    (hx : s.payload = .raw x) : digitOperand s k = .ok x := by
  rw [digitOperand, if_neg (by omega), if_neg hp, hx]

theorem digitOperand_of_gt {k : Nat} (hk : 254 < k) : digitOperand s k = .error ⟨.badOperand, k⟩ := if_pos hk

theorem digitOperand_of_empty {k : Nat} (hk : k ≤ 254) (hp : s.pstate = .empty) :
    digitOperand s k = .error ⟨.noPacket, k⟩ := by
  rw [digitOperand, if_neg (by omega), if_pos hp]

theorem digitOperand_of_delegated {k : Nat} (hk : k ≤ 254) (hp : s.pstate ≠ .empty) (ht : s.utag = 1) :
    digitOperand s k = .error ⟨.badOperand, k⟩ := by
  obtain ⟨d, inner, hx⟩ := State.utag_eq_one_iff.mp ht
  rw [digitOperand, if_neg (by omega), if_neg hp, hx]

/-- RDU and WRU raise what their digit operand raises (45_system.md rules R184, R185). -/
theorem exec_digit_of_error {k : Nat} {r : Raised} (h0 : s.fault = 0) (h : digitOperand s k = .error r)
    (d : BitVec 10) :
    exec (.rdu k) s = .next (s.faulted r.cause.code r.info) ∧
      exec (.wru k d) s = .next (s.faulted r.cause.code r.info) := by
  constructor
  · exact exec_of_body_error h0 (by rw [instrBody, rduBody, h, except_bind_error])
  · exact exec_of_body_error h0 (by rw [instrBody, wruBody, h, except_bind_error])

end Sys2Proof.Machine
end

section
/-! PROOFS. While PSTATE is Empty the packet registers are unseen (spec/10_state.md rules R27, R39): a simulation between a
state without a packet and that state with any other packet registers. -/

namespace Sys2Proof.Machine

variable {s t u u' q : State} {i : Instr}

/-! ### What the packet registers are no part of -/

@[simp] theorem State.withPacketOf_pstate (s q : State) : (s.withPacketOf q).pstate = s.pstate := rfl
@[simp] theorem State.withPacketOf_pos (s q : State) : (s.withPacketOf q).pos = s.pos := rfl
@[simp] theorem State.withPacketOf_fault (s q : State) : (s.withPacketOf q).fault = s.fault := rfl
@[simp] theorem State.withPacketOf_params (s q : State) : (s.withPacketOf q).params = s.params := rfl

@[simp] theorem read_withPacketOf (s q : State) (n p : Nat) : read (s.withPacketOf q) n p = read s n p := rfl
@[simp] theorem skip_withPacketOf (s q : State) (n p : Nat) : skip (s.withPacketOf q) n p = skip s n p := rfl

@[simp] theorem hdrDecode_withPacketOf (s q : State) (p : Nat) : hdrDecode (s.withPacketOf q) p = hdrDecode s p := rfl

theorem readBytes_withPacketOf (s q : State) (wc p : Nat) : readBytes (s.withPacketOf q) wc p = readBytes s wc p := by
  induction wc generalizing p with
  | zero => rfl
  | succ wc ih =>
    have hbyte : readProtected (s.withPacketOf q) p = readProtected s p := rfl
    simp only [readBytes, hbyte, ih]

@[simp] theorem udwDecode_withPacketOf (s q : State) (h : Header) (p : Nat) :
    udwDecode (s.withPacketOf q) h p = udwDecode s h p := by
  have hraw : udwDecodeRaw (s.withPacketOf q) h.wc.toNat p = udwDecodeRaw s h.wc.toNat p := rfl
  simp only [udwDecode, udwDecodeDelegated, hraw, readBytes_withPacketOf, State.withPacketOf_params]

@[simp] theorem trailerDecode_withPacketOf (s q : State) (p : Nat) :
    trailerDecode (s.withPacketOf q) p = trailerDecode s p := rfl

/-- PKDEC overwrites every packet register and reads none (44_packet.md rule R160). -/
theorem pkdecBody_withPacketOf (s q : State) : pkdecBody (s.withPacketOf q) = pkdecBody s := by
  simp only [pkdecBody, hdrDecode_withPacketOf, udwDecode_withPacketOf, trailerDecode_withPacketOf,
    State.withPacketOf_pos]
  rfl

/-- A register that a framer without a packet lets read is a status register. -/
theorem readOperand_of_empty {r : BitVec 8} {reg : Reg} (h : s.pstate = .empty) (hr : readOperand s r = .ok reg) :
    reg.isStatus = true := by
  unfold readOperand at hr
  split at hr
  · cases hr
  · unfold checkReg at hr
    split at hr
    · cases hr
    · rename_i hnot
      split at hr
      · cases hr
      · cases hr
        simpa [h] using hnot

theorem State.readReg_withPacketOf {reg : Reg} (h : reg.isStatus = true) :
    (s.withPacketOf q).readReg reg = s.readReg reg := by
  cases reg with
  | pstate | pos | len | olen | fault | finfo => rfl
  | _ => cases h

theorem checkReg_withPacketOf (h : s.pstate = .empty) (r : BitVec 8) (reg : Reg) :
    checkReg (s.withPacketOf q) r reg = checkReg s r reg := by
  cases hst : reg.isStatus with
  | true => rw [checkReg_of_status hst, checkReg_of_status hst]
  | false => rw [checkReg_of_empty h hst, checkReg_of_empty (s.withPacketOf_pstate q ▸ h) hst]

theorem readOperand_withPacketOf (h : s.pstate = .empty) (r : BitVec 8) :
    readOperand (s.withPacketOf q) r = readOperand s r := by
  simp only [readOperand, checkReg_withPacketOf h]

theorem writeOperand_withPacketOf (h : s.pstate = .empty) (r : BitVec 8) (v : BitVec 16) :
    writeOperand (s.withPacketOf q) r v = writeOperand s r v := by
  simp only [writeOperand, checkReg_withPacketOf h]

/-- A framer without a packet lets no digit be addressed (45_system.md rules R184, R185). -/
theorem digitOperand_error_of_empty (h : s.pstate = .empty) (k : Nat) :
    ∃ r, digitOperand s k = .error r ∧ digitOperand (s.withPacketOf q) k = .error r := by
  by_cases hk : 254 < k
  · exact ⟨_, digitOperand_of_gt hk, digitOperand_of_gt hk⟩
  · exact ⟨_, digitOperand_of_empty (by omega) h, digitOperand_of_empty (by omega) h⟩

/-! ### The relation between the two states -/

/-- Two states that are one but for the packet registers, and are one altogether once a packet is materialised. -/
def SameButUnseen (u' u : State) : Prop := u'.withPacketOf u = u ∧ (u.pstate ≠ .empty → u' = u)

theorem SameButUnseen.refl (u : State) : SameButUnseen u u := ⟨rfl, fun _ => rfl⟩

theorem sameButUnseen_of_empty (h : u.pstate = .empty) (q : State) : SameButUnseen (u.withPacketOf q) u :=
  ⟨rfl, fun hne => absurd h hne⟩

theorem SameButUnseen.completed (h : SameButUnseen u' u) (v : Nat) : SameButUnseen (u'.completed v) (u.completed v) :=
  ⟨congrArg (State.completed · v) h.1, fun hne => congrArg (State.completed · v) (h.2 hne)⟩

theorem SameButUnseen.faulted (h : SameButUnseen u' u) (k : BitVec 4) (n : Nat) :
    SameButUnseen (u'.faulted k n) (u.faulted k n) :=
  ⟨congrArg (State.faulted · k n) h.1, fun hne => congrArg (State.faulted · k n) (h.2 hne)⟩

theorem SameButUnseen.turnAway (h : SameButUnseen u' u) : SameButUnseen u'.turnAway u.turnAway :=
  ⟨congrArg State.turnAway h.1, fun hne => congrArg State.turnAway (h.2 hne)⟩

/-- Two results of a command's body that are answered alike. -/
inductive AnswersAlike : Except Raised (State × Nat) → Except Raised (State × Nat) → Prop where
  | ok {u' u : State} (h : SameButUnseen u' u) (v : Nat) : AnswersAlike (.ok (u', v)) (.ok (u, v))
  | error (r : Raised) : AnswersAlike (.error r) (.error r)

theorem AnswersAlike.refl (b : Except Raised (State × Nat)) : AnswersAlike b b := by
  cases b with
  | ok uv => exact .ok (.refl uv.1) uv.2
  | error r => exact .error r

/-- A body that leaves PSTATE Empty and writes no packet register keeps the relation. -/
theorem AnswersAlike.unwritten (h : u.pstate = .empty) (q : State) (v : Nat) :
    AnswersAlike (.ok (u.withPacketOf q, v)) (.ok (u, v)) :=
  .ok (sameButUnseen_of_empty h q) v

/-- Alike answers end a command alike. -/
theorem AnswersAlike.complete {s' : State} {b' b : Except Raised (State × Nat)} (hb : AnswersAlike b' b)
    (hs : SameButUnseen s' s) : ∃ t' t, complete s' b' = .next t' ∧ complete s b = .next t ∧ SameButUnseen t' t := by
  cases hb with
  | ok hu v => exact ⟨_, _, rfl, rfl, hu.completed v⟩
  | error r => exact ⟨_, _, rfl, rfl, hs.faulted r.cause.code r.info⟩

/-! ### Every command keeps it -/

theorem cinitBody_alike (n : Nat) (h : s.pstate = .empty) : AnswersAlike (cinitBody n (s.withPacketOf q)) (cinitBody n s) := by
  by_cases hn : n > s.params.bufBits.toNat
  · simp only [cinitBody, State.withPacketOf_params, hn, if_true]
    exact .error _
  · simp only [cinitBody, State.withPacketOf_params, hn, if_false]
    exact .unwritten (u := { s with len := BitVec.ofNat 24 n, pos := 0 }) h q _

theorem rdBody_alike (n : Nat) (h : s.pstate = .empty) : AnswersAlike (rdBody n (s.withPacketOf q)) (rdBody n s) := by
  simp only [rdBody, read_withPacketOf, State.withPacketOf_pos]
  split_ifs
  · exact .error _
  · cases read s n s.pos.toNat with
    | error r => exact .error r
    | ok vp => exact .unwritten (u := s.setPos vp.2) h q _

theorem skBody_alike (n : Nat) (h : s.pstate = .empty) : AnswersAlike (skBody n (s.withPacketOf q)) (skBody n s) := by
  simp only [skBody, skip_withPacketOf, State.withPacketOf_pos]
  cases skip s n s.pos.toNat with
  | error r => exact .error r
  | ok p => exact .unwritten (u := s.setPos p) h q _

theorem pkencBody_alike (h : s.pstate = .empty) : AnswersAlike (pkencBody (s.withPacketOf q)) (pkencBody s) := by
  rw [pkencBody, pkencBody, if_pos h, if_pos (s.withPacketOf_pstate q ▸ h)]
  exact .error _

theorem rdregBody_alike (r : BitVec 8) (h : s.pstate = .empty) :
    AnswersAlike (rdregBody r (s.withPacketOf q)) (rdregBody r s) := by
  rw [rdregBody, rdregBody, readOperand_withPacketOf h]
  cases hr : readOperand s r with
  | error e => exact .error e
  | ok reg =>
    rw [except_bind_ok, except_bind_ok, State.readReg_withPacketOf (readOperand_of_empty h hr)]
    exact .unwritten h q _

theorem wrregBody_alike (r : BitVec 8) (v : BitVec 16) (h : s.pstate = .empty) :
    AnswersAlike (wrregBody r v (s.withPacketOf q)) (wrregBody r v s) := by
  cases hb : wrregBody r v s with
  | ok uv =>
    obtain ⟨reg, -, -, hp, -⟩ := wrregBody_ok hb
    exact absurd h hp
  | error e =>
    rw [wrregBody] at hb
    rw [wrregBody, writeOperand_withPacketOf h]
    cases hw : writeOperand s r v with
    | ok reg => rw [hw] at hb; cases hb
    | error e' => rw [hw] at hb; cases hb; exact .error _

theorem rduBody_alike (k : Nat) (h : s.pstate = .empty) : AnswersAlike (rduBody k (s.withPacketOf q)) (rduBody k s) := by
  obtain ⟨e, he, he'⟩ := digitOperand_error_of_empty (q := q) h k
  rw [rduBody, rduBody, he, he']
  exact .error e

theorem wruBody_alike (k : Nat) (d : BitVec 10) (h : s.pstate = .empty) :
    AnswersAlike (wruBody k d (s.withPacketOf q)) (wruBody k d s) := by
  obtain ⟨e, he, he'⟩ := digitOperand_error_of_empty (q := q) h k
  rw [wruBody, wruBody, he, he']
  exact .error e

theorem instrBody_alike (i : Instr) (h : s.pstate = .empty) (q : State) :
    AnswersAlike (instrBody i (s.withPacketOf q)) (instrBody i s) := by
  cases i with
  | cinit n => exact cinitBody_alike n h
  | rd n => exact rdBody_alike n h
  | sk n => exact skBody_alike n h
  | encb b | decb w | isdel did sdid | padlen b => exact .unwritten h q _
  | pkdec =>
    rw [instrBody, pkdecBody_withPacketOf]
    exact .refl _
  | pkenc => exact pkencBody_alike h
  | rdreg r => exact rdregBody_alike r h
  | wrreg r v => exact wrregBody_alike r v h
  | rdu k => exact rduBody_alike k h
  | wru k d => exact wruBody_alike k d h
  | rst => exact .refl _

theorem exec_alike (i : Instr) (h : s.pstate = .empty) (q : State) :
    ∃ t' t, exec i (s.withPacketOf q) = .next t' ∧ exec i s = .next t ∧ SameButUnseen t' t := by
  have hs := sameButUnseen_of_empty h q
  rw [exec_eq, exec_eq, State.withPacketOf_fault]
  split_ifs
  · exact (instrBody_alike i h q).complete hs
  · exact ⟨_, _, rfl, rfl, hs.turnAway⟩

/-- Settles O21: every command's body is answered alike in the two states, and so is every way a command ends. -/
theorem emptyPacketRegistersAreUnseen : Obligations.EmptyPacketRegistersAreUnseen := by
  intro i s r t h he
  obtain ⟨t', t₀, he', he₀, hsame⟩ := exec_alike i h r
  cases he.symm.trans he₀
  exact ⟨t', he', hsame⟩

end Sys2Proof.Machine
end

section
/-! PROOFS. The state (spec/10_state.md): what a step runs, what the resets leave, what each command may write, and what the
register and digit commands answer. -/

namespace Sys2Proof.Machine

variable {s t u : State}

/-! ### A step, and the resets -/

/-- Settles O6: the host's next action is taken, and its word is decoded. -/
theorem stepRunsTheDecodedCommand : Obligations.StepRunsTheDecodedCommand := by
  intro s w rest i hs hw
  rw [step_of_host_cons hs]
  exact runWord_of_decode hw _

/-- Settles O13, clause by clause. -/
theorem resetStateMeetsTheInvariant : Obligations.ResetStateMeetsTheInvariant where
  bufBits_pos := by decide
  pos_le_len := le_rfl
  len_le_bufBits := Nat.zero_le _
  buf_wf := rfl
  buf_below := fun _ hkb => nomatch hkb
  out_cells := rfl
  out_length := rfl
  olen_le := Nat.zero_le _
  fault_le := Nat.zero_le _
  finfo_zero := fun _ => rfl
  olen_zero := fun _ => rfl

/-- Settles O14: the first state, RST, and the hardware reset. -/
theorem resetLeavesTheStatedValues : Obligations.ResetLeavesTheStatedValues := by
  refine ⟨⟨rfl, rfl, rfl, rfl, rfl, rfl⟩, fun s => ?_, fun s rest hs => ?_⟩
  · exact ⟨_, exec_rst s, rfl, rfl, rfl, rfl, rfl, rfl, rfl, fun _ => rfl, rfl⟩
  · exact ⟨_, step_of_host_cons hs, rfl, rfl, rfl, rfl, rfl, rfl, rfl⟩

/-! ### A recorded fault -/

theorem runWord_of_faulted {w : CmdWord} (hw : runWord w s = .next t) (hf : s.fault ≠ 0) (hne : w ≠ 0x0E000000#32) :
    ∃ a, t = { s with resp := a } := by
  cases hd : decode w with
  | ok i =>
    rw [runWord_of_decode hd] at hw
    refine exec_of_faulted hw hf fun hi => hne (decode_eq_rst_iff.mp ?_)
    rw [hd, hi]
  | error e =>
    rw [runWord, hd] at hw
    dsimp only at hw
    rw [command_of_fault_ne hf] at hw
    cases hw
    exact ⟨_, rfl⟩

theorem hostWrite_next {addr : Nat} {bits : Bits} (h : hostWrite addr bits s = .next t) : ∃ b, t = { s with buf := b } := by
  unfold hostWrite at h
  split at h
  · cases h
    exact ⟨_, rfl⟩
  · cases h

theorem hostAct_keeps_fault {a : HostAction} (ha : hostAct a s = .next t) (hf : s.fault ≠ 0)
    (hrst : a ≠ .command 0x0E000000#32) (hhard : a ≠ .hardReset) : t.fault = s.fault ∧ t.finfo = s.finfo := by
  cases a with
  | command w =>
    obtain ⟨resp, rfl⟩ := runWord_of_faulted ha hf fun hw => hrst (by rw [hw])
    exact ⟨rfl, rfl⟩
  | writeBuf addr bits =>
    obtain ⟨b, rfl⟩ := hostWrite_next ha
    exact ⟨rfl, rfl⟩
  | copyOut =>
    obtain ⟨b, rfl⟩ := hostWrite_next ha
    exact ⟨rfl, rfl⟩
  | hardReset => exact absurd rfl hhard

theorem hostAct_reset_clears_fault {a : HostAction} (ha : hostAct a s = .next t)
    (h : a = .command 0x0E000000#32 ∨ a = .hardReset) : t.fault = 0 ∧ t.finfo = 0 := by
  obtain rfl | rfl := h
  · rw [hostAct, runWord_of_decode (decode_eq_rst_iff.mpr rfl), exec_rst] at ha
    cases ha
    exact ⟨rfl, rfl⟩
  · cases ha
    exact ⟨rfl, rfl⟩

/-- Settles O11, by the host's next action. -/
theorem onlyResetClearsTheFault : Obligations.OnlyResetClearsTheFault := by
  intro s t hf hs
  cases hh : s.host with
  | nil =>
    rw [step, hh] at hs
    cases hs
    exact ⟨fun h => by simp at h, fun _ => ⟨rfl, rfl⟩⟩
  | cons a rest =>
    rw [step_of_host_cons hh] at hs
    simp only [List.head?_cons, Option.some.injEq]
    refine ⟨hostAct_reset_clears_fault hs, fun h => ?_⟩
    exact hostAct_keeps_fault (s := { s with host := rest }) hs hf (fun hw => h (.inl hw)) (fun hw => h (.inr hw))

/-! ### What a command may write -/

/-- Settles O16: BUF and the model's inputs are among no command's writes. -/
theorem noCommandWritesBuf : Obligations.NoCommandWritesBuf := by
  intro i s t he
  obtain ⟨u, k, n, a, hw, rfl⟩ := exec_writes he
  obtain ⟨hbuf, hparams, hhost, hresets⟩ := hw.inputs
  refine ⟨hbuf, fun x => ?_, hparams, hhost, hresets⟩
  simp only [State.bufBit, hbuf, hresets]

/-- Settles O17: a command advances POS without wrapping, and the invariant it keeps bounds POS by LEN. -/
theorem cursorMovesForward : Obligations.CursorMovesForward := by
  intro i s t hinv he hr hc
  have hle := (exec_keeps_inv hinv he).pos_le_len
  obtain ⟨u, k, n, a, hw, rfl⟩ := exec_writes he
  obtain ⟨hlen, hpos⟩ := hw.cursor hr hc
  exact ⟨hlen, hpos, hle⟩

/-- Settles O18, by the three ways a command may leave the payload. -/
theorem payloadKindChangesOnlyByDecodeOrReset : Obligations.PayloadKindChangesOnlyByDecodeOrReset := by
  intro i s t he hd hr
  obtain ⟨u, k, n, a, hw, rfl⟩ := exec_writes he
  obtain hsame | ⟨x, y, hs, hu⟩ | ⟨d, d', inner, hs, hu⟩ := hw.payload hd hr
  · exact ⟨State.utag_congr hsame, fun d inner h => ⟨d, hsame.trans h⟩⟩
  · refine ⟨(State.utag_eq_zero_iff.mpr ⟨y, hu⟩).trans (State.utag_eq_zero_iff.mpr ⟨x, hs⟩).symm, fun d inner h => ?_⟩
    rw [hs] at h
    cases h
  · refine ⟨(State.utag_eq_one_iff.mpr ⟨d', inner, hu⟩).trans (State.utag_eq_one_iff.mpr ⟨d, inner, hs⟩).symm,
      fun e inner' h => ?_⟩
    rw [hs] at h
    cases h
    exact ⟨d', hu⟩

/-- Settles O19: CS is written by PKDEC, RST and a register write of 0x08. -/
theorem checksumWordIsCarried : Obligations.ChecksumWordIsCarried := by
  intro i s t he hd hr hcs
  obtain ⟨u, k, n, a, hw, rfl⟩ := exec_writes he
  exact hw.cs hd hr hcs

/-- Settles O20, by the command, and for a recorded fault by whether it was raised or found. -/
theorem packetLifecycle : Obligations.PacketLifecycle := by
  intro i s t he
  refine ⟨fun hd hen hr => ?_, fun hi => ?_, fun hi h0 => ?_, fun hi h0 => ?_, exec_pstate_of_fault_ne he⟩
  · obtain ⟨u, k, n, a, hw, rfl⟩ := exec_writes he
    exact hw.pstate hd hen hr
  · rw [hi, exec_rst] at he
    cases he
    rfl
  · obtain ⟨u, v, hb, rfl⟩ := exec_completed he h0
    rw [hi] at hb
    obtain ⟨payload, p, -, -, rfl, -, -⟩ := pkdecBody_ok hb
    rfl
  · obtain ⟨u, v, hb, rfl⟩ := exec_completed he h0
    rw [hi] at hb
    obtain ⟨payload, wc', hp, -, rfl, -⟩ := pkencBody_ok hb
    exact ⟨hp, rfl⟩

/-- Settles O43, by the payload the decoded pair of data IDs selects. -/
theorem completedDecodeMeetsThePacketInvariants : Obligations.CompletedDecodeMeetsThePacketInvariants := by
  intro s t he _ h0
  obtain ⟨u, v, hb, rfl⟩ := exec_completed he h0
  obtain ⟨payload, p, hd, hn, rfl, -, rfl⟩ := pkdecBody_ok hb
  refine ⟨?_, fun x hx => ?_, State.toNat_advance hn, rfl⟩
  · refine State.utag_eq_one_iff.trans (Iff.trans ?_ isDelegated_iff)
    obtain ⟨hdel, d, inner, rfl⟩ | ⟨hraw, x, rfl, -⟩ := udwDecode_payload hd
    · exact iff_of_true ⟨d, inner, rfl⟩ hdel
    · exact iff_of_false (fun ⟨_, _, h⟩ => nomatch h) (fun h => Bool.false_ne_true (hraw.symm.trans h))
  · obtain ⟨-, d, inner, rfl⟩ | ⟨-, y, rfl, hy⟩ := udwDecode_payload hd
    · cases hx
    · cases hx
      exact hy

/-! ### The register and digit commands -/

theorem readReg_utag_of_raw {x : BitVec 2550} (hx : s.payload = .raw x) : s.readReg .utag = 0 :=
  congrArg BitVec.toNat (State.utag_eq_zero_iff.mpr ⟨x, hx⟩)

theorem readReg_utag_of_delegated {d : BitVec 16} {inner : Inner} (hx : s.payload = .delegated d inner) :
    s.readReg .utag = 1 :=
  congrArg BitVec.toNat (State.utag_eq_one_iff.mpr ⟨d, inner, hx⟩)

theorem readReg_desc_of_delegated {d : BitVec 16} {inner : Inner} (hx : s.payload = .delegated d inner) :
    s.readReg .desc = d.toNat := by
  rw [State.readReg, hx]

theorem utag_ne_zero_of_delegated {d : BitVec 16} {inner : Inner} (hx : s.payload = .delegated d inner) :
    s.utag ≠ 0 := by
  rw [State.utag_eq_one_iff.mpr ⟨d, inner, hx⟩]
  decide

theorem readReg_pstate (s : State) :
    s.readReg .pstate = if s.pstate = .empty then 0 else if s.pstate = .decoded then 1 else 2 := by
  rw [State.readReg]
  cases s.pstate <;> rfl

/-- Settles O54, register by register. -/
theorem rdregReadsTheRegister : Obligations.RdregReadsTheRegister := by
  refine ⟨fun s h0 hp => ?_, fun s => ?_⟩
  · have hread : ∀ r reg, Reg.ofAddr r = some reg → reg ≠ .desc →
        exec (.rdreg r) s = .next (s.completed (s.readReg reg)) :=
      fun r reg hr hne => exec_rdreg_of_packet h0 hp hr fun h => absurd h hne
    refine ⟨hread _ .c rfl nofun, hread _ .line rfl nofun, hread _ .hoff rfl nofun, hread _ .s rfl nofun,
      hread _ .stream rfl nofun, hread _ .did rfl nofun, hread _ .sdid rfl nofun, hread _ .wc rfl nofun,
      hread _ .cs rfl nofun, fun x hx => ?_, fun d inner hx => ⟨?_, ?_⟩⟩
    · rw [hread _ .utag rfl nofun, readReg_utag_of_raw hx]
    · rw [hread _ .utag rfl nofun, readReg_utag_of_delegated hx]
    · rw [exec_rdreg_of_packet (reg := .desc) h0 hp rfl fun _ => utag_ne_zero_of_delegated hx,
        readReg_desc_of_delegated hx]
  · refine ⟨?_, exec_rdreg_of_status (reg := .pos) rfl rfl, exec_rdreg_of_status (reg := .len) rfl rfl,
      exec_rdreg_of_status (reg := .olen) rfl rfl, exec_rdreg_of_status (reg := .fault) rfl rfl,
      exec_rdreg_of_status (reg := .finfo) rfl rfl⟩
    rw [exec_rdreg_of_status (reg := .pstate) rfl rfl, readReg_pstate]

/-- Settles O56, register by register. -/
theorem wrregWritesTheRegister : Obligations.WrregWritesTheRegister := by
  intro s v h0 hp
  have hwrite : ∀ r reg, Reg.ofAddr r = some reg → reg.writable = true → reg ≠ .desc → v.toNat < 2 ^ reg.width →
      exec (.wrreg r v) s = .next ((s.writeReg reg v.toNat).completed 0) :=
    fun r reg hr hw hne => exec_wrreg_of_packet h0 hp hr hw fun h => absurd h hne
  refine ⟨hwrite _ .c rfl rfl nofun, hwrite _ .line rfl rfl nofun, hwrite _ .hoff rfl rfl nofun,
    hwrite _ .s rfl rfl nofun, hwrite _ .stream rfl rfl nofun, hwrite _ .did rfl rfl nofun,
    hwrite _ .sdid rfl rfl nofun, hwrite _ .wc rfl rfl nofun, hwrite _ .cs rfl rfl nofun, fun d inner hx => ?_⟩
  rw [exec_wrreg_of_packet (reg := .desc) h0 hp rfl rfl (fun _ => utag_ne_zero_of_delegated hx) v.isLt,
    State.writeReg, hx]
  dsimp only
  rw [BitVec.ofNat_toNat, BitVec.setWidth_eq]

theorem exec_rdu_of_raw {k : Nat} {x : BitVec 2550} (h0 : s.fault = 0) (hk : k ≤ 254) (hp : s.pstate ≠ .empty)
    (hx : s.payload = .raw x) : exec (.rdu k) s = .next (s.completed (x.toNat / 2 ^ (10 * k) % 1024)) := by
  rw [← toNat_readDigit]
  refine exec_of_body_ok h0 ?_
  rw [instrBody, rduBody, digitOperand_of_raw hk hp hx]
  rfl

theorem exec_wru_of_raw {k : Nat} {x : BitVec 2550} (h0 : s.fault = 0) (hk : k ≤ 254) (hp : s.pstate ≠ .empty)
    (hx : s.payload = .raw x) (d : BitVec 10) :
    exec (.wru k d) s = .next (State.completed { s with payload := .raw (writeDigit x k d) } 0) := by
  refine exec_of_body_ok h0 ?_
  rw [instrBody, wruBody, digitOperand_of_raw hk hp hx]
  rfl

/-- Settles O58: the words, the three tests of the digit operand in their order, then the digit itself. -/
theorem rduAndWruComplete : Obligations.RduAndWruComplete := by
  refine ⟨fun _ => rfl, fun _ _ => rfl, fun k d s h0 => ⟨fun hk => ?_, fun hk hp => ?_, fun hk hp ht => ?_, ?_⟩⟩
  · exact exec_digit_of_error h0 (digitOperand_of_gt hk) d
  · exact exec_digit_of_error h0 (digitOperand_of_empty hk hp) d
  · exact exec_digit_of_error h0 (digitOperand_of_delegated hk hp ht) d
  · intro hk hp x hx
    exact ⟨exec_rdu_of_raw h0 hk hp hx, _, exec_wru_of_raw h0 hk hp hx d, getLsbD_writeDigit x k d⟩

end Sys2Proof.Machine
end

section
/-! PROOFS. The input buffer: a read cut in two, and the host's writes (20_memory.md R52, R60). -/

namespace Sys2Proof.Machine

variable {s : State} {addr : Nat} {bits : Bits}

/-- Settles O23: a run of BUF is its two parts one after the other, and the value of a list in two parts scales the
first. -/
theorem successiveReadsTile : Obligations.SuccessiveReadsTile := by
  intro s a m n
  simp only [State.memRead, State.bufBits_add, val_append, State.length_bufBits]

/-! ### The host's writes -/

theorem State.bufBit_setBits_of_lt (s : State) (addr : Nat) {i : Nat} (hi : i < bits.length) :
    ({ s with buf := s.buf.setBits addr bits } : State).bufBit (addr + i) = bits[i] := by
  have hin : addr ≤ addr + i ∧ addr + i < addr + bits.length := by omega
  rw [State.bufBit, BitMem.get?_setBits, if_pos hin, Nat.add_sub_cancel_left, List.getElem?_eq_getElem hi,
    Option.getD_some]

theorem State.bufBit_setBits_of_outside (s : State) {a : Nat} (ha : a < addr ∨ addr + bits.length ≤ a) :
    ({ s with buf := s.buf.setBits addr bits } : State).bufBit a = s.bufBit a := by
  have hout : ¬(addr ≤ a ∧ a < addr + bits.length) := by omega
  rw [State.bufBit, BitMem.get?_setBits, if_neg hout]
  rfl

theorem hostWrite_of_le (h : addr + bits.length ≤ s.params.bufBits.toNat) :
    hostWrite addr bits s = .next { s with buf := s.buf.setBits addr bits } := if_pos h

theorem hostWrite_of_lt (h : s.params.bufBits.toNat < addr + bits.length) :
    hostWrite addr bits s = .fault .noSuchBufCell := if_neg h.not_ge

/-- Settles O24: the write stores the bits when BUF has all their cells and stops the machine otherwise, and a store is
read back where it wrote and nowhere else. -/
theorem hostWriteIsReadBack : Obligations.HostWriteIsReadBack := by
  intro s addr bits rest hh
  rw [step_of_host_cons hh, hostAct]
  refine ⟨fun hle => ⟨_, hostWrite_of_le hle, rfl, fun i hi => ?_, fun a ha => ?_⟩, fun hlt => hostWrite_of_lt hlt⟩
  · exact State.bufBit_setBits_of_lt { s with host := rest } addr hi
  · exact State.bufBit_setBits_of_outside { s with host := rest } ha

end Sys2Proof.Machine
end

section
/-! PROOFS. The command words (spec/30_encoding.md Part B): what the decoder reads from a word that fits a row of rule
R81's table, and what the encoder writes. -/

namespace Sys2Proof
open Machine

variable {i : Instr} {w : CmdWord}

/-! ### The fields of a word -/

theorem extract_arg {start len : Nat} (h : start + len ≤ 24) :
    (CmdWord.arg w).extractLsb' start len = w.extractLsb' start len :=
  BitVec.extractLsb'_extractLsb'_of_le h

theorem zero_append_extract {a b : Nat} {x : BitVec (a + b)} (h : x.extractLsb' b a = 0#a) :
    0#a ++ x.extractLsb' 0 b = x := by
  rw [← h, BitVec.extractLsb'_append_extractLsb']

theorem ifClear_of_eq_zero {n : Nat} {op : Byte} {stray : BitVec n} (h : stray = 0) (i : Instr) :
    ifClear op stray i = .ok i := if_pos h

theorem zero_append_extract_append {a b c : Nat} {x : BitVec (a + b + c)} (h : x.extractLsb' (c + b) a = 0#a) :
    0#a ++ x.extractLsb' c b ++ x.extractLsb' 0 c = x := by
  rw [← h, BitVec.extractLsb'_append_extractLsb'_eq_extractLsb' rfl, BitVec.extractLsb'_append_extractLsb']

theorem append_eq_zero {a b : Nat} {x : BitVec a} {y : BitVec b} (h : x ++ y = 0#(a + b)) : x = 0#a ∧ y = 0#b := by
  rw [← BitVec.zero_append_zero] at h
  exact ⟨by rw [← extract_append_high x y, h, extract_append_high],
    by rw [← BitVec.extractLsb'_append_eq_right (a := x) (b := y), h, BitVec.extractLsb'_append_eq_right]⟩

/-! ### The rows of the table -/

theorem OpcodeRow.fits_iff {r : OpcodeRow} : r.fits w = true ↔ w &&& r.mask = r.pattern := beq_iff_eq

theorem row_mem_opcodeTable (i : Instr) : i.row ∈ opcodeTable := by
  cases i <;> simp [opcodeTable, Instr.row]

/-- Every mask of rule R81 covers the opcode. -/
theorem op_of_fits {r : OpcodeRow} (hr : r ∈ opcodeTable) (h : r.fits w = true) :
    w.extractLsb' 24 8 = r.pattern.extractLsb' 24 8 := by
  have hmask : ∀ r ∈ opcodeTable, r.mask.extractLsb' 24 8 = BitVec.allOnes 8 := by decide
  exact field_of_mask (OpcodeRow.fits_iff.mp h) (hmask r hr)

/-- The table has one row per opcode. -/
theorem row_eq_of_opcode_eq : ∀ r ∈ opcodeTable, ∀ r' ∈ opcodeTable,
    r.pattern.extractLsb' 24 8 = r'.pattern.extractLsb' 24 8 → r = r' := by
  decide

theorem op_of_fits_row (h : i.row.fits w = true) : CmdWord.op w = i.opcode := by
  refine (op_of_fits (row_mem_opcodeTable i) h).trans ?_
  cases i <;> simp only [Instr.row] <;> rfl

/-- The command of `i`'s row with the operands that stand in `w` at the places of 30_encoding.md rule R80. -/
def Instr.operandsOf (w : CmdWord) : Instr → Instr
  | .cinit _ => .cinit (w.extractLsb' 0 24).toNat
  | .rd _ => .rd (w.extractLsb' 0 7).toNat
  | .sk _ => .sk (w.extractLsb' 0 24).toNat
  | .encb _ => .encb (w.extractLsb' 0 8)
  | .decb _ => .decb (w.extractLsb' 0 10)
  | .isdel _ _ => .isdel (w.extractLsb' 8 8) (w.extractLsb' 0 8)
  | .padlen _ => .padlen (w.extractLsb' 0 8)
  | .pkdec => .pkdec
  | .pkenc => .pkenc
  | .rdreg _ => .rdreg (w.extractLsb' 16 8)
  | .wrreg _ _ => .wrreg (w.extractLsb' 16 8) (w.extractLsb' 0 16)
  | .rdu _ => .rdu (w.extractLsb' 10 8).toNat
  | .wru _ _ => .wru (w.extractLsb' 10 8).toNat (w.extractLsb' 0 10)
  | .rst => .rst

theorem decode_of_fits (h : i.row.fits w = true) : decode w = .ok (i.operandsOf w) := by
  have hop := op_of_fits_row h
  have hbits := OpcodeRow.fits_iff.mp h
  cases i <;>
    simp (disch := omega) only [decode, hop, Instr.opcode, extract_arg, BitVec.ofNat_eq_ofNat, BitVec.reduceToNat,
      Instr.row] at hbits ⊢
  case cinit | sk | wrreg => rfl
  case rdu =>
    refine ifClear_of_eq_zero ?_ _
    rw [field_of_mask (s := 18) (l := 6) hbits rfl, field_of_mask (s := 0) (l := 10) hbits rfl]
    rfl
  all_goals exact ifClear_of_eq_zero (field_of_mask hbits rfl) _

/-! ### The word of a command -/

/-- The bits of `cmd[23:0]` that the mask of a command's row covers: those R80's format leaves unnamed. -/
def Instr.strayMask : Instr → BitVec 24
  | .cinit _ | .sk _ | .wrreg _ _ => 0
  | .rd _ => BitVec.allOnes 17 ++ 0#7
  | .encb _ | .padlen _ => BitVec.allOnes 16 ++ 0#8
  | .decb _ => BitVec.allOnes 14 ++ 0#10
  | .isdel _ _ => BitVec.allOnes 8 ++ 0#8 ++ 0#8
  | .pkdec | .pkenc | .rst => BitVec.allOnes 24
  | .rdreg _ => 0#8 ++ BitVec.allOnes 16
  | .rdu _ => BitVec.allOnes 6 ++ 0#8 ++ BitVec.allOnes 10
  | .wru _ _ => BitVec.allOnes 6 ++ 0#8 ++ 0#10

theorem row_mask (i : Instr) : i.row.mask = BitVec.allOnes 8 ++ i.strayMask := by
  cases i <;> dsimp only [Instr.row, Instr.strayMask] <;> decide

theorem row_pattern (i : Instr) : i.row.pattern = i.opcode ++ 0#24 := by
  cases i <;> dsimp only [Instr.row, Instr.opcode] <;> decide

theorem and_append_eq_zero {a b : Nat} {x m : BitVec a} {y n : BitVec b} (hx : x &&& m = 0#a) (hy : y &&& n = 0#b) :
    (x ++ y) &&& (m ++ n) = 0#(a + b) := by
  rw [BitVec.and_append, hx, hy, BitVec.zero_append_zero]

/-- The encoder puts an operand at none of the places a row's mask covers. -/
theorem argument_and_strayMask (i : Instr) : i.argument &&& i.strayMask = 0#24 := by
  cases i with
  | cinit | sk | wrreg => exact BitVec.and_zero
  | rd | encb | decb | padlen => exact and_append_eq_zero BitVec.zero_and BitVec.and_zero
  | isdel | wru => exact and_append_eq_zero (and_append_eq_zero BitVec.zero_and BitVec.and_zero) BitVec.and_zero
  | pkdec | pkenc | rst => exact BitVec.zero_and
  | rdreg => exact and_append_eq_zero BitVec.and_zero BitVec.zero_and
  | rdu => exact and_append_eq_zero (and_append_eq_zero BitVec.zero_and BitVec.and_zero) BitVec.zero_and

theorem row_fits_encode (i : Instr) : i.row.fits (encode i) = true := by
  rw [OpcodeRow.fits_iff, encode, row_mask, row_pattern]
  exact BitVec.and_append.trans (by rw [BitVec.and_allOnes, argument_and_strayMask])

/-! ### Decoding what was encoded -/

theorem extract_encode (i : Instr) {start len : Nat} (h : start + len ≤ 24) :
    (encode i).extractLsb' start len = i.argument.extractLsb' start len :=
  extract_append_low _ _ _ _ h

theorem extract_append_middle {a b c : Nat} (x : BitVec a) (y : BitVec b) (z : BitVec c) :
    (x ++ y ++ z).extractLsb' c b = y :=
  (extract_append_above (x ++ y) z 0 b).trans BitVec.extractLsb'_append_eq_right

/-- A natural operand that fits its field is the field's value. -/
theorem toNat_ofNat_of_fits {n width : Nat} (h : decide (n < 2 ^ width) = true) : (BitVec.ofNat width n).toNat = n :=
  (BitVec.toNat_ofNat ..).trans (Nat.mod_eq_of_lt (of_decide_eq_true h))

theorem operandsOf_encode (h : i.wf = true) : i.operandsOf (encode i) = i := by
  cases i <;> simp (disch := omega) only [Instr.operandsOf, extract_encode, Instr.argument]
  case cinit n | sk n => rw [BitVec.extractLsb'_eq_self, toNat_ofNat_of_fits h]
  case rd n => rw [BitVec.extractLsb'_append_eq_right, toNat_ofNat_of_fits h]
  case encb b | decb b | padlen b => rw [BitVec.extractLsb'_append_eq_right]
  case isdel did sdid => rw [BitVec.extractLsb'_append_eq_right, extract_append_middle]
  case rdreg r => rw [BitVec.extractLsb'_append_eq_left]
  case wrreg r v => rw [BitVec.extractLsb'_append_eq_left, BitVec.extractLsb'_append_eq_right]
  case rdu k => rw [extract_append_middle, toNat_ofNat_of_fits h]
  case wru k d => rw [BitVec.extractLsb'_append_eq_right, extract_append_middle, toNat_ofNat_of_fits h]

/-! ### Encoding what was decoded -/

theorem argument_of_decode (h : decode w = .ok i) : i.argument = CmdWord.arg w ∧ i.wf = true := by
  unfold decode at h
  dsimp only at h
  split at h
  case h_15 => cases h
  case h_1 | h_3 =>
    cases h
    exact ⟨BitVec.ofNat_toNat .., decide_eq_true (BitVec.isLt _)⟩
  case h_11 =>
    cases h
    exact ⟨BitVec.extractLsb'_append_extractLsb', rfl⟩
  all_goals obtain ⟨hstray, rfl⟩ := ifClear_ok h
  case h_4 | h_5 | h_7 => exact ⟨zero_append_extract hstray, rfl⟩
  case h_6 => exact ⟨zero_append_extract_append hstray, rfl⟩
  case h_8 | h_9 | h_14 => exact ⟨hstray.symm, rfl⟩
  case h_10 =>
    exact ⟨(congrArg (_ ++ ·) hstray.symm).trans BitVec.extractLsb'_append_extractLsb', rfl⟩
  all_goals
    refine ⟨?_, decide_eq_true (BitVec.isLt _)⟩
    rw [Instr.argument, BitVec.ofNat_toNat, BitVec.setWidth_eq]
  case h_2 => exact zero_append_extract hstray
  case h_12 =>
    obtain ⟨hhigh, hlow⟩ := append_eq_zero hstray
    exact (congrArg (_ ++ ·) hlow.symm).trans (zero_append_extract_append hhigh)
  case h_13 => exact zero_append_extract_append hstray

theorem encode_of_decode (h : decode w = .ok i) : encode i = w := by
  rw [encode, BitVec.eq_of_toNat_eq (opcode_of_decode h), (argument_of_decode h).1, op_append_arg]

/-- A word the decoder accepts fits the row of the command it gives. -/
theorem row_fits_of_decode (h : decode w = .ok i) : i.row.fits w = true :=
  encode_of_decode h ▸ row_fits_encode i

/-- A word the decoder rejects raises IllegalCommand with `FINFO = cmd[23:0]` (30_encoding.md rule R82). -/
theorem runWord_of_decode_error {s : State} {why : Reject} (h : decode w = .error why) (h0 : s.fault = 0) :
    runWord w s = .next (s.faulted 3 (w.extractLsb' 0 24).toNat) := by
  rw [runWord, h]
  exact command_of_fault_zero h0 _

theorem decode_error_of_no_fit (h : ∀ r ∈ opcodeTable, r.fits w = false) : ∃ r, decode w = .error r := by
  cases hd : decode w with
  | error r => exact ⟨r, rfl⟩
  | ok i => exact absurd (row_fits_of_decode hd) (by simp [h _ (row_mem_opcodeTable i)])

/-! ### The statements -/

/-- Settles O1: the word fits its command's row, and holds the operands where the decoder reads them. -/
theorem decodeOfEncodeIsTheCommand : Obligations.DecodeOfEncodeIsTheCommand := by
  intro i hwf
  rw [decode_of_fits (row_fits_encode i), operandsOf_encode hwf]

/-- Settles O2, by the opcode and the argument of the word. -/
theorem encodeOfDecodedWordIsTheWord : Obligations.EncodeOfDecodedWordIsTheWord :=
  fun _ _ h => ⟨encode_of_decode h, (argument_of_decode h).2⟩

/-- Settles O3: a word that fits a row decodes to the operands it holds, a decoded word is the word of its command, and
the rows' opcodes differ. -/
theorem wordIsACommandExactlyWhenItFitsARow : Obligations.WordIsACommandExactlyWhenItFitsARow := by
  refine ⟨fun w => ?_, fun w i h => OpcodeRow.fits_iff.mp (row_fits_of_decode h), fun w r hr r' hr' h h' => ?_⟩
  · have hrow : ∀ i : Instr, w &&& i.row.mask = i.row.pattern → decode w = .ok (i.operandsOf w) :=
      fun i h => decode_of_fits (OpcodeRow.fits_iff.mpr h)
    exact ⟨hrow (.cinit 0), hrow (.rd 0), hrow (.sk 0), hrow (.encb 0), hrow (.decb 0), hrow (.isdel 0 0),
      hrow (.padlen 0), hrow .pkdec, hrow .pkenc, hrow (.rdreg 0), hrow (.wrreg 0 0), hrow (.rdu 0), hrow (.wru 0 0),
      hrow .rst⟩
  · exact row_eq_of_opcode_eq r hr r' hr' ((op_of_fits hr h).symm.trans (op_of_fits hr' h'))

/-- Settles O4: each word is decoded. -/
theorem wordsOfTheVectorsDecode : Obligations.WordsOfTheVectorsDecode := by
  unfold Obligations.WordsOfTheVectorsDecode
  decide

/-- Settles O5: a word that fits no row is rejected and raises the fault; an opcode selects at most one row. -/
theorem illegalWordRaisesIllegalCommand : Obligations.IllegalWordRaisesIllegalCommand := by
  refine ⟨fun s w rest hs h0 hno => ?_, fun w hop r hr => ?_, fun w r hr hop hno r' hr' => ?_⟩
  · obtain ⟨why, herr⟩ := decode_error_of_no_fit hno
    rw [step_of_host_cons hs]
    exact runWord_of_decode_error herr h0
  · have hlegal : ∀ r ∈ opcodeTable,
        r.pattern.extractLsb' 24 8 ≠ 0#8 ∧ (r.pattern.extractLsb' 24 8).toNat < 0x0F := by decide
    refine Bool.eq_false_iff.mpr fun h => ?_
    rw [op_of_fits hr h] at hop
    obtain ⟨hne, hlt⟩ := hlegal r hr
    rcases hop with hop | hop
    · exact hne hop
    · omega
  · refine Bool.eq_false_iff.mpr fun h => ?_
    rw [row_eq_of_opcode_eq r hr r' hr' (hop.symm.trans (op_of_fits hr' h)), h] at hno
    cases hno

end Sys2Proof
end

section
/-! PROOFS. What the decoding commands take from the wire (spec/30_encoding.md rules R77, R85): the protected byte RDP
reads, and the fields of the packet PKDEC materialises. -/

namespace Sys2Proof.Machine

variable {s : State} {payload : Payload}

/-! ### A protected byte -/

theorem exec_sk_of_le {n : Nat} (h0 : s.fault = 0) (hn : n ≤ s.left) :
    exec (.sk n) s = .next ((s.setPos (s.pos.toNat + n)).completed 0) := by
  refine exec_of_body_ok h0 ?_
  rw [instrBody, skBody, skip_of_le hn]
  rfl

theorem exec_rd_of_le {n : Nat} (h0 : s.fault = 0) (h1 : 1 ≤ n) (h64 : n ≤ 64) (hn : n ≤ s.left) :
    exec (.rd n) s = .next ((s.setPos (s.pos.toNat + n)).completed (s.memRead s.pos.toNat n)) := by
  have hwidth : ¬(n < 1 ∨ n > Config.rdMax) := by
    rw [Config.rdMax]
    omega
  refine exec_of_body_ok h0 ?_
  rw [instrBody, rdBody, if_neg hwidth, read_of_le hn]
  rfl

/-- The byte of the wire word at a position of BUF stands after its two protection bits (30_encoding.md rule R72). -/
theorem decodeByte_memRead (s : State) (p : Nat) :
    (decodeByte (BitVec.ofNat 10 (s.memRead p 10))).toNat = s.memRead (p + 2) 8 := by
  have htile : s.memRead p 10 = s.memRead p 2 * 2 ^ 8 + s.memRead (p + 2) 8 := successiveReadsTile s p 2 8
  have hword := s.memRead_lt p 10
  have hbyte := s.memRead_lt (p + 2) 8
  rw [decodeByte, BitVec.extractLsb'_toNat, BitVec.toNat_ofNat, Nat.shiftRight_zero]
  omega

/-- Settles O37: SK passes the protection bits, and RD reads the byte after them. -/
theorem rdpReadsAProtectedByte : Obligations.RdpReadsAProtectedByte := by
  refine ⟨rfl, fun s h0 hl => ?_⟩
  have hpos : (BitVec.ofNat 24 (s.pos.toNat + 2)).toNat = s.pos.toNat + 2 := State.toNat_advance (by omega)
  have hleft : 8 ≤ ((s.setPos (s.pos.toNat + 2)).completed 0).left := by
    show 8 ≤ s.len.toNat - (BitVec.ofNat 24 (s.pos.toNat + 2)).toNat
    unfold State.left at hl
    omega
  refine ⟨_, _, exec_sk_of_le h0 (by omega), exec_rd_of_le h0 (by omega) (by omega) hleft, ?_⟩
  rw [decodeByte_memRead, State.completed_pos, State.setPos_pos, hpos]
  rfl

/-! ### The fields of the packet at the cursor -/

theorem State.toNat_field (s : State) (off w : Nat) : (BitVec.ofNat w (s.field off w)).toNat = s.field off w :=
  (BitVec.toNat_ofNat ..).trans (Nat.mod_eq_of_lt (s.memRead_lt _ _))

theorem toNat_headerAt_wc (s : State) : (headerAt s s.pos.toNat).wc.toNat = s.field 54 8 := s.toNat_field 54 8

theorem State.ofNat_field_eq_iff {off w : Nat} {v : BitVec w} :
    BitVec.ofNat w (s.field off w) = v ↔ s.field off w = v.toNat := by
  rw [BitVec.toNat_eq, State.toNat_field]

theorem isDelegated_headerAt :
    isDelegated (headerAt s s.pos.toNat).did (headerAt s s.pos.toNat).sdid = true ↔
      s.field 34 8 = 0x41 ∧ s.field 44 8 = 0x07 :=
  isDelegated_iff.trans (and_congr State.ofNat_field_eq_iff State.ofNat_field_eq_iff)

theorem bytesAt_eq_payloadBytes (s : State) (wc : Nat) :
    bytesAt s wc (s.pos.toNat + 62) = (List.range wc).map s.payloadByte := by
  refine List.map_congr_left fun i _ => ?_
  rw [State.payloadByte, State.field, show s.pos.toNat + 62 + 2 + 10 * i = s.pos.toNat + (64 + 10 * i) by omega]

/-! ### PKDEC -/

theorem pkdecBody_of_short_header (hl : s.left < 62) : pkdecBody s = .error ⟨.truncatedInput, hdrStop s.left⟩ := by
  rw [pkdecBody, hdrDecode_of_lt hl]
  rfl

theorem State.payload_le_of_le_left {n : Nat} (h : 72 + n ≤ s.left) : n ≤ s.len.toNat - (s.pos.toNat + 62) := by
  unfold State.left at h
  omega

/-- A PKDEC whose payload stage answers and whose bits reach to the trailer's end completes (44_packet.md rule R160). -/
theorem exec_pkdec_of_payload (h0 : s.fault = 0) (hl : 72 + 10 * s.field 54 8 ≤ s.left)
    (hd : udwDecode s (headerAt s s.pos.toNat) (s.pos.toNat + 62) =
      .ok (payload, s.pos.toNat + 62 + 10 * s.field 54 8)) :
    exec .pkdec s = .next (State.completed
      ((s.materialise (headerAt s s.pos.toNat) payload (BitVec.ofNat 9 (s.field (63 + 10 * s.field 54 8) 9))).setPos
        (s.pos.toNat + (72 + 10 * s.field 54 8))) (72 + 10 * s.field 54 8)) := by
  have htrailer : 10 ≤ s.len.toNat - (s.pos.toNat + 62 + 10 * s.field 54 8) := by
    unfold State.left at hl
    omega
  have hcs : s.pos.toNat + 62 + 10 * s.field 54 8 + 1 = s.pos.toNat + (63 + 10 * s.field 54 8) := by omega
  have hend : s.pos.toNat + 62 + 10 * s.field 54 8 + 10 = s.pos.toNat + (72 + 10 * s.field 54 8) := by omega
  refine exec_of_body_ok h0 ?_
  rw [instrBody, pkdecBody_of_payload (by omega) hd, trailerDecode_of_le htrailer, hcs, hend, toNat_headerAt_wc]
  rfl

/-- Settles O38: the payload stage takes the raw path. -/
theorem pkdecRawCompletes : Obligations.PkdecRawCompletes := by
  intro s h0 hraw hl
  refine exec_pkdec_of_payload h0 hl ?_
  rw [udwDecode, if_neg (isDelegated_headerAt.not.mpr hraw), toNat_headerAt_wc,
    udwDecodeRaw_of_le (State.payload_le_of_le_left hl)]
  rfl

/-- Settles O39: the payload stage takes the delegated path, and the bytes it reads are those on the wire. -/
theorem pkdecDelegatedCompletes : Obligations.PkdecDelegatedCompletes := by
  intro s inner h0 hdid hsdid hwc hl hcodec
  have hdrop : ((List.range (s.field 54 8)).map s.payloadByte).drop 2 =
      (List.range (s.field 54 8 - 2)).map fun i => s.payloadByte (i + 2) :=
    List.ext_getElem (by simp) (by simp [Nat.add_comm])
  have hdid' : BitVec.ofNat 8 (s.field 34 8) = 0x41 := State.ofNat_field_eq_iff.mpr hdid
  have hsdid' : BitVec.ofNat 8 (s.field 44 8) = 0x07 := State.ofNat_field_eq_iff.mpr hsdid
  rw [← hdid', ← hsdid']
  refine exec_pkdec_of_payload h0 hl ?_
  rw [udwDecode, if_pos (isDelegated_headerAt.mpr ⟨hdid, hsdid⟩), toNat_headerAt_wc,
    udwDecodeDelegated_of_le (State.payload_le_of_le_left hl), if_neg (by omega), bytesAt_eq_payloadBytes, hdrop,
    hcodec]
  simp [List.getD_eq_getElem?_getD, show 0 < s.field 54 8 by omega, show 1 < s.field 54 8 by omega]

end Sys2Proof.Machine
end

section
/-! PROOFS. The bits PKDEC never looks at (spec/30_encoding.md rule R78): two states that agree on the other bits of the
packet at the cursor decode alike, stage by stage. -/

namespace Sys2Proof.Machine

variable {s s' t : State} {d : Bool} {wc : Nat}

/-! ### The bits it keeps -/

theorem State.memRead_congr {a n : Nat} (h : ∀ i < n, s'.bufBit (a + i) = s.bufBit (a + i)) :
    s'.memRead a n = s.memRead a n :=
  congrArg val (List.map_congr_left fun i hi => h i (List.mem_range.mp hi))

theorem isKeptBit_iff {off : Nat} : isKeptBit d wc off = true ↔
    off < 32 ∨ (34 ≤ off ∧ off < 42) ∨ (44 ≤ off ∧ off < 52) ∨ (54 ≤ off ∧ off < 62) ∨
    (62 ≤ off ∧ off < 62 + 10 * wc ∧ (d = false ∨ 2 ≤ (off - 62) % 10)) ∨
    (63 + 10 * wc ≤ off ∧ off < 72 + 10 * wc) := by
  simp [isKeptBit, or_assoc, and_assoc]

theorem isKeptBit_raw_payload {i : Nat} (hi : i < 10 * wc) : isKeptBit false wc (62 + i) = true :=
  isKeptBit_iff.mpr (.inr (.inr (.inr (.inr (.inl ⟨by omega, by omega, .inl rfl⟩)))))

/-- Two states with the same packet at the cursor, but for the bits PKDEC does not keep (30_encoding.md rule R78). -/
def AgreeOnKept (d : Bool) (wc : Nat) (s' s : State) : Prop :=
  ∀ off, isKeptBit d wc off = true → s'.bufBit (s.pos.toNat + off) = s.bufBit (s.pos.toNat + off)

theorem AgreeOnKept.memRead_eq {off w : Nat} (h : AgreeOnKept d wc s' s)
    (hk : ∀ i < w, isKeptBit d wc (off + i) = true) :
    s'.memRead (s.pos.toNat + off) w = s.memRead (s.pos.toNat + off) w :=
  State.memRead_congr fun i hi => by rw [Nat.add_assoc]; exact h _ (hk i hi)

theorem AgreeOnKept.headerAt_eq (h : AgreeOnKept d wc s' s) :
    headerAt s' s.pos.toNat = headerAt s s.pos.toNat := by
  have hread : ∀ off w, off + w ≤ 32 ∨ (w = 8 ∧ (off = 34 ∨ off = 44 ∨ off = 54)) →
      s'.memRead (s.pos.toNat + off) w = s.memRead (s.pos.toNat + off) w := fun off w hw =>
    h.memRead_eq fun i hi => isKeptBit_iff.mpr (by omega)
  have hc := hread 0 1 (by omega)
  rw [Nat.add_zero] at hc
  rw [headerAt, headerAt, hc, hread 1 11 (by omega), hread 12 12 (by omega), hread 24 1 (by omega),
    hread 25 7 (by omega), hread 34 8 (by omega), hread 44 8 (by omega), hread 54 8 (by omega)]

theorem AgreeOnKept.bytesAt_eq (h : AgreeOnKept true wc s' s) :
    bytesAt s' wc (s.pos.toNat + 62) = bytesAt s wc (s.pos.toNat + 62) := by
  refine List.map_congr_left fun k hk => ?_
  have hlt := List.mem_range.mp hk
  rw [show s.pos.toNat + 62 + 2 + 10 * k = s.pos.toNat + (64 + 10 * k) by omega,
    h.memRead_eq fun i hi => isKeptBit_iff.mpr (by omega)]

/-- The payload stage reads its bits alike, or finds too few of them alike. -/
theorem AgreeOnKept.udwDecode_eq {h : Header}
    (ha : AgreeOnKept (isDelegated h.did h.sdid) h.wc.toNat s' s) (hlen : s'.len = s.len)
    (hparams : s'.params = s.params) :
    udwDecode s' h (s.pos.toNat + 62) = udwDecode s h (s.pos.toNat + 62) := by
  unfold udwDecode
  by_cases hl : s.len.toNat - (s.pos.toNat + 62) < 10 * h.wc.toNat
  · rw [udwDecodeDelegated_of_lt hl, udwDecodeDelegated_of_lt (hlen ▸ hl), udwDecodeRaw_of_lt hl,
      udwDecodeRaw_of_lt (hlen ▸ hl), hlen]
  · rw [not_lt] at hl
    rw [udwDecodeDelegated_of_le hl, udwDecodeDelegated_of_le (hlen ▸ hl), udwDecodeRaw_of_le hl,
      udwDecodeRaw_of_le (hlen ▸ hl), hparams]
    split
    · rename_i hdel
      rw [hdel] at ha
      rw [ha.bytesAt_eq]
    · rename_i hraw
      rw [Bool.not_eq_true] at hraw
      rw [hraw] at ha
      rw [ha.memRead_eq fun i hi => isKeptBit_raw_payload hi]

theorem AgreeOnKept.trailerDecode_eq (h : AgreeOnKept d wc s' s) (hlen : s'.len = s.len) :
    trailerDecode s' (s.pos.toNat + (62 + 10 * wc)) = trailerDecode s (s.pos.toNat + (62 + 10 * wc)) := by
  by_cases hl : s.len.toNat - (s.pos.toNat + (62 + 10 * wc)) < 10
  · rw [trailerDecode_of_lt hl, trailerDecode_of_lt (hlen ▸ hl), hlen]
  · rw [not_lt] at hl
    rw [trailerDecode_of_le hl, trailerDecode_of_le (hlen ▸ hl), Nat.add_assoc,
      h.memRead_eq fun i hi => isKeptBit_iff.mpr (by omega)]

/-! ### PKDEC on the two states -/

/-- The state with another input buffer. -/
def State.withBuf (s : State) (b : BitMem) : State := { s with buf := b }

/-- What a body gives, with another input buffer. -/
def resultWithBuf (b : BitMem) (r : State × Nat) : State × Nat := (r.1.withBuf b, r.2)

theorem pkdecBody_withBuf {b : BitMem}
    (ha : AgreeOnKept (isDelegated (headerAt s s.pos.toNat).did (headerAt s s.pos.toNat).sdid)
      (headerAt s s.pos.toNat).wc.toNat (s.withBuf b) s) :
    pkdecBody (s.withBuf b) = (pkdecBody s).map (resultWithBuf b) := by
  by_cases hl : s.left < 62
  · rw [pkdecBody_of_short_header hl, pkdecBody_of_short_header (s := s.withBuf b) hl]
    rfl
  · rw [not_lt] at hl
    have hh : headerAt (s.withBuf b) (s.withBuf b).pos.toNat = headerAt s s.pos.toNat := ha.headerAt_eq
    have hu : udwDecode (s.withBuf b) (headerAt (s.withBuf b) (s.withBuf b).pos.toNat)
        ((s.withBuf b).pos.toNat + 62) = udwDecode s (headerAt s s.pos.toNat) (s.pos.toNat + 62) :=
      hh ▸ ha.udwDecode_eq rfl rfl
    cases hd : udwDecode s (headerAt s s.pos.toNat) (s.pos.toNat + 62) with
    | error r =>
      rw [pkdecBody_of_payload_error hl hd, pkdecBody_of_payload_error (s := s.withBuf b) hl (hu.trans hd)]
      rfl
    | ok pp =>
      obtain ⟨payload, p⟩ := pp
      obtain ⟨-, rfl⟩ := udwDecode_ok hd
      rw [pkdecBody_of_payload hl hd, pkdecBody_of_payload (s := s.withBuf b) hl (hu.trans hd), hh, Nat.add_assoc,
        ha.trailerDecode_eq rfl]
      cases trailerDecode s (s.pos.toNat + (62 + 10 * (headerAt s s.pos.toNat).wc.toNat)) <;> rfl

theorem command_withBuf (b : BitMem) (body : Except Raised (State × Nat)) (h : command s body = .next t) :
    command (s.withBuf b) (body.map (resultWithBuf b)) = .next (t.withBuf b) := by
  by_cases h0 : s.fault = 0
  · rw [command_of_fault_zero h0] at h
    rw [command_of_fault_zero (s := s.withBuf b) h0]
    cases body <;> cases h <;> rfl
  · rw [command_of_fault_ne h0] at h
    cases h
    exact command_of_fault_ne (s := s.withBuf b) h0 _

/-- Settles O44: the header, the payload and the trailer are read from kept bits alone. -/
theorem pkdecIgnoresUncheckedBits : Obligations.PkdecIgnoresUncheckedBits := by
  intro s t b hkept he
  have ha : AgreeOnKept (isDelegated (headerAt s s.pos.toNat).did (headerAt s s.pos.toNat).sdid)
      (headerAt s s.pos.toNat).wc.toNat (s.withBuf b) s := by
    rw [toNat_headerAt_wc, Bool.eq_iff_iff.mpr (isDelegated_headerAt.trans decide_eq_true_iff.symm)]
    exact hkept
  show command (s.withBuf b) (pkdecBody (s.withBuf b)) = _
  rw [pkdecBody_withBuf ha]
  exact command_withBuf b _ he

end Sys2Proof.Machine
end

section
/-! PROOFS. The bits PKENC writes (spec/30_encoding.md rule R70), on both payload paths. -/

namespace Sys2Proof.Machine

variable {s : State}

theorem encodeBytes_eq_flatMap (l : List Byte) : encodeBytes l = l.flatMap fun b => bitsOf 10 (encodeByte b).toNat := by
  induction l with
  | nil => rfl
  | cons b l ih => rw [encodeBytes, ih, List.flatMap_cons, regBits]

/-- The output in the wire order of 30_encoding.md rule R70. -/
theorem packetBits_eq (s : State) (bits : Bits) (wc' : Nat) : packetBits s bits wc' =
    bitsOf 1 s.c.toNat ++ bitsOf 11 0x7FF ++ bitsOf 12 0xFFF ++ bitsOf 1 s.sflag.toNat
      ++ bitsOf 7 s.stream.toNat ++ bitsOf 10 (encodeByte s.did).toNat ++ bitsOf 10 (encodeByte s.sdid).toNat
      ++ bitsOf 10 (encodeByte (BitVec.ofNat 8 wc')).toNat ++ bits
      ++ [!s.cs.getLsbD 8] ++ bitsOf 9 s.cs.toNat ++ List.replicate (32 - (10 * wc' + 8) % 32) false := by
  rw [packetBits, trailerEncode, List.append_assoc _ [_], List.singleton_append]
  rfl

theorem exec_pkenc_of_payload {bits : Bits} {wc' : Nat} (h0 : s.fault = 0) (hp : s.pstate ≠ .empty)
    (hd : udwEncode s = .ok (bits, wc')) :
    exec .pkenc s = .next ((encodedState s bits wc').completed (packetBits s bits wc').length) :=
  exec_of_body_ok h0 (pkencBody_of_payload hp hd)

/-- Settles O45: the payload stage gives the value at the width of WC, which PKENC writes back. -/
theorem pkencRawCompletes : Obligations.PkencRawCompletes := by
  intro s x h0 hp hx hlt
  have hwc : BitVec.ofNat 8 s.wc.toNat = s.wc := by rw [BitVec.ofNat_toNat, BitVec.setWidth_eq]
  have hbits := packetBits_eq s (bitsOf (10 * s.wc.toNat) x.toNat) s.wc.toNat
  have he := exec_pkenc_of_payload h0 hp (udwEncode_raw hx hlt)
  rw [encodedState, hwc] at he
  rw [hwc] at hbits
  refine ⟨_, hbits, he, ?_⟩
  rw [length_packetBits, length_bitsOf]
  rfl

/-- Settles O46: the payload stage gives the wire words of all the bytes, and half their number. -/
theorem pkencDelegatedCompletes : Obligations.PkencDelegatedCompletes := by
  intro s desc inner ser h0 hp hx hcodec hle
  refine ⟨_, ?_, exec_pkenc_of_payload h0 hp (udwEncode_delegated hx hcodec hle), ?_⟩
  · rw [packetBits_eq, encodeBytes_eq_flatMap]
  · have hn : ser.length + 1 + 1 = 2 + ser.length := by omega
    rw [length_packetBits, length_encodeBytes, List.length_cons, List.length_cons, hn]
    rfl

end Sys2Proof.Machine
end

section
/-! PROOFS. The commands of the bit cursor (spec/40_bitcursor.md rules R102 to R104): CINIT, RD and SK. -/

namespace Sys2Proof.Machine

variable {s u : State} {i : Instr} {n : Nat}

/-! ### Each command's answer, by its guard -/

theorem exec_cinit_of_le (h0 : s.fault = 0) (hn : n ≤ s.params.bufBits.toNat) :
    exec (.cinit n) s = .next (State.completed { s with len := BitVec.ofNat 24 n, pos := 0 } 0) :=
  exec_of_body_ok h0 (if_neg hn.not_gt)

theorem exec_cinit_of_lt (h0 : s.fault = 0) (hn : s.params.bufBits.toNat < n) :
    exec (.cinit n) s = .next (s.faulted 4 n) :=
  exec_of_body_error (r := ⟨.badOperand, n⟩) h0 (if_pos hn)

theorem exec_rd_of_bad_width (h0 : s.fault = 0) (hn : n = 0 ∨ 64 < n) : exec (.rd n) s = .next (s.faulted 4 n) := by
  have hwidth : n < 1 ∨ n > Config.rdMax := hn.imp_left Nat.lt_one_iff.mpr
  exact exec_of_body_error (r := ⟨.badOperand, n⟩) h0 (if_pos hwidth)

theorem exec_rd_of_left_lt (h0 : s.fault = 0) (h1 : 1 ≤ n) (h64 : n ≤ 64) (hl : s.left < n) :
    exec (.rd n) s = .next (s.faulted 1 n) := by
  have hwidth : ¬(n < 1 ∨ n > Config.rdMax) := not_or.mpr ⟨h1.not_gt, h64.not_gt⟩
  refine exec_of_body_error (r := ⟨.truncatedInput, n⟩) h0 ?_
  rw [instrBody, rdBody, if_neg hwidth, read_of_lt hl, except_bind_error]

theorem exec_sk_of_left_lt (h0 : s.fault = 0) (hl : s.left < n) : exec (.sk n) s = .next (s.faulted 1 n) := by
  refine exec_of_body_error (r := ⟨.truncatedInput, n⟩) h0 ?_
  rw [instrBody, skBody, skip_of_lt hl, except_bind_error]

/-- Settles O25: the capacity is a 24-bit number, so a length within it fits LEN. -/
theorem cinitOpensTheCursor : Obligations.CinitOpensTheCursor := by
  refine ⟨fun _ => rfl, fun n s h0 => ⟨fun hn => ⟨exec_cinit_of_le h0 hn, ?_⟩, exec_cinit_of_lt h0⟩⟩
  rw [BitVec.toNat_ofNat, Nat.mod_eq_of_lt (hn.trans_lt s.params.bufBits.isLt)]

/-- Settles O26: the width is tested before the bounds, and a position within LEN does not wrap. -/
theorem rdReadsTheNextBits : Obligations.RdReadsTheNextBits :=
  ⟨fun _ => rfl, fun n s h0 => ⟨exec_rd_of_bad_width h0, exec_rd_of_left_lt h0, fun h1 h64 hn =>
    ⟨exec_rd_of_le h0 h1 h64 hn, State.toNat_advance hn, s.memRead_lt s.pos.toNat n⟩⟩⟩

/-- Settles O27: the bounds are the only test, and a position within LEN does not wrap. -/
theorem skSkips : Obligations.SkSkips :=
  ⟨fun _ => rfl, fun _ _ h0 =>
    ⟨exec_sk_of_left_lt h0, fun hn => ⟨exec_sk_of_le h0 hn, State.toNat_advance hn⟩⟩⟩

/-! ### Their frame -/

/-- Of a cursor command's writes only LEN and POS differ from the old state, LEN for CINIT alone. -/
theorem Writes.cursor_frame (h : Writes s i u) (hi : i = .cinit n ∨ i = .rd n ∨ i = .sk n) :
    u = { s with len := u.len, pos := u.pos } ∧ (i ≠ .cinit n → u.len = s.len) := by
  obtain rfl | rfl | rfl := hi
  · cases h with
    | nothing => exact ⟨rfl, fun _ => rfl⟩
    | openCursor => exact ⟨rfl, fun hne => absurd rfl hne⟩
  · cases h with
    | nothing | read => exact ⟨rfl, fun _ => rfl⟩
  · cases h with
    | nothing | skip => exact ⟨rfl, fun _ => rfl⟩

/-- Settles O28: a cursor command writes no more than LEN and POS, so OUT is among what stays, and no command writes
BUF. -/
theorem cursorCommandsFrame : Obligations.CursorCommandsFrame := by
  intro n i s t hi he
  obtain ⟨-, hbuf, -⟩ := noCommandWritesBuf i s t he
  obtain ⟨u, k, info, a, hw, rfl⟩ := exec_writes he
  obtain ⟨hu, hlen⟩ := hw.cursor_frame hi
  have hout : u.out = s.out := by rw [hu]
  refine ⟨?_, hlen, hbuf, fun x => congrArg (BitMem.get? · x) hout⟩
  exact congrArg (fun w : State => { w with fault := k, finfo := info, resp := a }) hu

end Sys2Proof.Machine
end

section
/-! PROOFS. The word codec (spec/41_wordcodec.md): the parity word, ENCB and DECB, and the frame of the commands that
only compute or read. -/

namespace Sys2Proof.Machine

variable {s t u : State} {i : Instr} {b : Byte} {v w : WireWord}

/-! ### The parity word, bit by bit (rule R120) -/

theorem oddParity_iff : oddParity b = true ↔ ((List.range 8).countP fun j => b.getLsbD j) % 2 = 1 := beq_iff_eq

/-- The bits above the byte are the protection bits. -/
theorem encodeByte_getLsbD_above (b : Byte) (j : Nat) :
    (encodeByte b).getLsbD (8 + j) = (BitVec.ofBool (!oddParity b) ++ BitVec.ofBool (oddParity b)).getLsbD j :=
  BitVec.getLsbD_append.trans (by rw [if_neg (by omega), Nat.add_sub_cancel_left])

theorem encodeByte_getLsbD_eight (b : Byte) : (encodeByte b).getLsbD 8 = oddParity b :=
  (encodeByte_getLsbD_above b 0).trans (by cases oddParity b <;> rfl)

theorem encodeByte_getLsbD_nine (b : Byte) : (encodeByte b).getLsbD 9 = !oddParity b :=
  (encodeByte_getLsbD_above b 1).trans (by cases oddParity b <;> rfl)

theorem decodeByte_encodeByte (b : Byte) : decodeByte (encodeByte b) = b := by
  rw [decodeByte, encodeByte, extract_append_low _ b 0 8 le_rfl, BitVec.extractLsb'_eq_self]

theorem getLsbD_decodeByte (w : WireWord) {j : Nat} (hj : j < 8) : (decodeByte w).getLsbD j = w.getLsbD j := by
  simp [decodeByte, hj]

/-- The parity of the data byte is that of the word's low eight bits. -/
theorem oddParity_decodeByte_iff :
    oddParity (decodeByte w) = true ↔ ((List.range 8).countP fun j => w.getLsbD j) % 2 = 1 := by
  have hbits : ∀ j ∈ List.range 8, (decodeByte w).getLsbD j = true ↔ w.getLsbD j = true := fun j hj => by
    rw [getLsbD_decodeByte w (List.mem_range.mp hj)]
  rw [oddParity_iff, List.countP_congr hbits]

/-- A wire word is its data byte and its two protection bits. -/
theorem wireWord_ext (hb : decodeByte v = decodeByte w) (h8 : v.getLsbD 8 = w.getLsbD 8)
    (h9 : v.getLsbD 9 = w.getLsbD 9) : v = w := by
  refine BitVec.eq_of_getLsbD_eq fun j hj => ?_
  obtain hlow | rfl | rfl : j < 8 ∨ j = 8 ∨ j = 9 := by omega
  · rw [← getLsbD_decodeByte v hlow, hb, getLsbD_decodeByte w hlow]
  · exact h8
  · exact h9

/-- Settles O29: the parity goes to bit 8 and its complement to bit 9, above the byte. -/
theorem encodeByteMakesTheParityWord : Obligations.EncodeByteMakesTheParityWord := by
  intro b
  rw [encodeByte_getLsbD_nine, encodeByte_getLsbD_eight]
  exact ⟨oddParity_iff, rfl, decodeByte_encodeByte b⟩

/-- The wire words that encoding gives back are those whose protection bits encode their data byte (rule R126 (b)). -/
theorem encodeByte_decodeByte_iff :
    encodeByte (decodeByte w) = w ↔ w.getLsbD 8 = oddParity (decodeByte w) ∧ w.getLsbD 9 = !w.getLsbD 8 := by
  constructor
  · intro h
    have h8 : w.getLsbD 8 = oddParity (decodeByte w) := by rw [← encodeByte_getLsbD_eight, h]
    have h9 : w.getLsbD 9 = !oddParity (decodeByte w) := by rw [← encodeByte_getLsbD_nine, h]
    exact ⟨h8, by rw [h9, h8]⟩
  · rintro ⟨h8, h9⟩
    refine wireWord_ext (decodeByte_encodeByte _) ?_ ?_
    · rw [encodeByte_getLsbD_eight, h8]
    · rw [encodeByte_getLsbD_nine, h9, h8]

/-- Settles O30: a wire word is its data byte and its protection bits, and decoding inverts encoding. -/
theorem wordCodecLaws : Obligations.WordCodecLaws := by
  refine ⟨decodeByte_encodeByte, fun w => ?_, fun b b' h => ?_⟩
  · rw [encodeByte_decodeByte_iff, Bool.eq_iff_iff, oddParity_decodeByte_iff]
  · rw [← decodeByte_encodeByte b, h, decodeByte_encodeByte]

/-- Settles O31: neither rule reads the state or can fault. -/
theorem encbAndDecbComplete : Obligations.EncbAndDecbComplete :=
  ⟨fun _ => rfl, fun _ => rfl, fun _ h0 => ⟨fun _ => exec_of_body_ok h0 rfl, fun _ => exec_of_body_ok h0 rfl⟩⟩

/-! ### The frame of the commands that compute or read -/

/-- A command whose rule is a value of the state, with nothing to write and no fault to raise, writes the response
alone: so it does when it is turned away (60_exceptions.md rule R231). -/
theorem exec_frame_of_value {n : Nat} (hb : instrBody i s = .ok (s, n)) (he : exec i s = .next t) :
    t = { s with resp := t.resp } := by
  obtain ⟨u, m, hu, rfl, -⟩ | ⟨r, hr, -, -⟩ | ⟨-, -, rfl⟩ := exec_cases he
  · cases hb.symm.trans hu
    rfl
  · cases hb.symm.trans hr
  · rfl

/-- RDREG and RDU write nothing of their own (45_system.md rules R182, R184). -/
theorem Writes.eq_of_read (h : Writes s i u) (hi : (∃ r, i = .rdreg r) ∨ ∃ k, i = .rdu k) : u = s := by
  obtain ⟨r, rfl⟩ | ⟨k, rfl⟩ := hi <;> cases h <;> rfl

/-- Settles O35: the four computing commands complete or are turned away, the two reading ones may fault too; OUT is
among what stays, and no command writes BUF. -/
theorem readingCommandsFrame : Obligations.ReadingCommandsFrame := by
  intro i s t he
  obtain ⟨-, hbuf, -⟩ := noCommandWritesBuf i s t he
  refine ⟨fun hi => ?_, fun hi => ?_⟩
  · have ht : t = { s with resp := t.resp } := by
      obtain ⟨b, rfl⟩ | ⟨w, rfl⟩ | ⟨d, e, rfl⟩ | ⟨b, rfl⟩ := hi <;> exact exec_frame_of_value rfl he
    have hout : t.out = s.out := by rw [ht]
    exact ⟨ht, hbuf, fun a => congrArg (BitMem.get? · a) hout⟩
  · obtain ⟨u, k, n, a, hw, rfl⟩ := exec_writes he
    obtain rfl := hw.eq_of_read hi
    exact ⟨rfl, hbuf, fun _ => rfl⟩

end Sys2Proof.Machine
end

section
/-! PROOFS. The header codec (spec/42_headercodec.md): what hdrDecode takes from the bits hdrEncode makes, and how PKDEC
stops where the header is cut short. -/

namespace Sys2Proof.Machine

variable {s : State} {p : Nat}

/-! ### A run of BUF that holds registers -/

/-- A run of BUF that holds two lists, one after the other, is two runs. -/
theorem State.bufBits_eq_append {m n : Nat} {l r : Bits} (h : s.bufBits p (m + n) = l ++ r) (hl : l.length = m) :
    s.bufBits p m = l ∧ s.bufBits (p + m) n = r :=
  List.append_inj (s.bufBits_add p m n ▸ h) (by rw [State.length_bufBits, hl])

theorem State.ofNat_memRead_of_regBits {w : Nat} {v : BitVec w} (h : s.bufBits p w = regBits v) :
    BitVec.ofNat w (s.memRead p w) = v := by
  rw [State.memRead, h, val_regBits, BitVec.ofNat_toNat, BitVec.setWidth_eq]

/-- Behind the two protection bits of an encoded byte stands the byte: decoding inverts encoding (41_wordcodec.md rule
R126 (a)). -/
theorem State.ofNat_memRead_of_encodeByte {b : Byte} (h : s.bufBits p 10 = regBits (encodeByte b)) :
    BitVec.ofNat 8 (s.memRead (p + 2) 8) = b := by
  rw [← decodeByte_memRead, State.ofNat_memRead_of_regBits h, decodeByte_encodeByte, BitVec.ofNat_toNat,
    BitVec.setWidth_eq]

/-! ### The header -/

/-- The header read from the bits of hdrEncode, whose fields are taken off the list from its end. -/
theorem headerAt_of_hdrEncode {c f : BitVec 1} {stream : BitVec 7} {did sdid wc : Byte}
    (h : s.bufBits p 62 = hdrEncode c f stream did sdid wc) :
    headerAt s p = {
      c := c, line := Config.lineSentinel, hoff := Config.hoffSentinel, sflag := f, stream := stream
      did := did, sdid := sdid, wc := wc } := by
  obtain ⟨h, hwc⟩ := State.bufBits_eq_append (m := 52) (n := 10) h (by simp)
  obtain ⟨h, hsdid⟩ := State.bufBits_eq_append (m := 42) (n := 10) h (by simp)
  obtain ⟨h, hdid⟩ := State.bufBits_eq_append (m := 32) (n := 10) h (by simp)
  obtain ⟨h, hstream⟩ := State.bufBits_eq_append (m := 25) (n := 7) h (by simp)
  obtain ⟨h, hsflag⟩ := State.bufBits_eq_append (m := 24) (n := 1) h (by simp)
  obtain ⟨h, hhoff⟩ := State.bufBits_eq_append (m := 12) (n := 12) h (by simp)
  obtain ⟨hc, hline⟩ := State.bufBits_eq_append (m := 1) (n := 11) h (by simp)
  rw [headerAt, State.ofNat_memRead_of_regBits hc, State.ofNat_memRead_of_regBits hline,
    State.ofNat_memRead_of_regBits hhoff, State.ofNat_memRead_of_regBits hsflag,
    State.ofNat_memRead_of_regBits hstream, State.ofNat_memRead_of_encodeByte hdid,
    State.ofNat_memRead_of_encodeByte hsdid, State.ofNat_memRead_of_encodeByte hwc]

/-- Settles O36: the reads reach to the header's end, and each takes the field hdrEncode put there. -/
theorem headerDecodeOfEncode : Obligations.HeaderDecodeOfEncode := by
  intro s p c f stream did sdid wc hlen h
  rw [hdrDecode_of_le (Nat.le_sub_of_add_le' hlen), headerAt_of_hdrEncode h]
  rfl

/-- Settles O40: PKDEC's first stage stops at the read or skip that finds too few bits. -/
theorem pkdecOfShortHeaderFaults : Obligations.PkdecOfShortHeaderFaults :=
  fun _ h0 hl => exec_of_body_error (i := .pkdec) h0 (pkdecBody_of_short_header hl)

end Sys2Proof.Machine
end

section
/-! PROOFS. The payload resolver (spec/43_payloadresolver.md): ISDEL, and the faults of PKDEC and of PKENC in the order
in which their stages run. -/

namespace Sys2Proof.Machine

variable {s : State} {h : Header} {p wc : Nat} {r : Raised} {inner : Inner}

/-! ### The predicate -/

theorem toNat_isDelegated (did sdid : Byte) :
    (isDelegated did sdid).toNat = if did = 0x41 ∧ sdid = 0x07 then 1 else 0 := by
  simp only [← isDelegated_iff]
  cases isDelegated did sdid <;> rfl

/-- Settles O32: the rule of ISDEL is a value of its operands alone, and cannot fault. -/
theorem isdelCompletes : Obligations.IsdelCompletes := by
  refine ⟨fun _ _ => rfl, fun did sdid s h0 => ?_⟩
  rw [← toNat_isDelegated]
  exact exec_of_body_ok h0 rfl

/-! ### The payload stage of PKDEC -/

theorem udwDecode_of_delegated (hdel : isDelegated h.did h.sdid = true) :
    udwDecode s h p = udwDecodeDelegated s h.wc.toNat p := if_pos hdel

theorem udwDecode_of_raw (hraw : ¬ isDelegated h.did h.sdid = true) :
    udwDecode s h p = udwDecodeRaw s h.wc.toNat p := if_neg hraw

theorem udwDecodeDelegated_of_underrun (hle : 10 * wc ≤ s.len.toNat - p) (hwc : wc < 2) :
    udwDecodeDelegated s wc p = .error ⟨.descriptorUnderrun, wc⟩ := by
  rw [udwDecodeDelegated_of_le hle, if_pos hwc]

theorem udwDecodeDelegated_of_codec_none (hle : 10 * wc ≤ s.len.toNat - p) (hwc : 2 ≤ wc)
    (hcodec : pcDecode s.params ((bytesAt s wc p).drop 2) = none) :
    udwDecodeDelegated s wc p = .error ⟨.payloadCodecFault, 0⟩ := by
  rw [udwDecodeDelegated_of_le hle, if_neg hwc.not_gt, hcodec]

theorem udwDecodeDelegated_of_codec_some (hle : 10 * wc ≤ s.len.toNat - p) (hwc : 2 ≤ wc)
    (hcodec : pcDecode s.params ((bytesAt s wc p).drop 2) = some inner) :
    udwDecodeDelegated s wc p = .ok (.delegated (BitVec.ofNat 16 (((bytesAt s wc p).getD 0 0).toNat * 256 +
      ((bytesAt s wc p).getD 1 0).toNat)) inner, p + 10 * wc) := by
  rw [udwDecodeDelegated_of_le hle, if_neg hwc.not_gt, hcodec]

/-- The bytes the PayloadCodec is given: those after the descriptor (43_payloadresolver.md rule R145). -/
theorem drop_two_bytesAt (s : State) (wc : Nat) :
    (bytesAt s wc (s.pos.toNat + 62)).drop 2 = (List.range (wc - 2)).map fun i => s.payloadByte (i + 2) := by
  rw [bytesAt_eq_payloadBytes]
  exact List.ext_getElem (by simp) (by simp [Nat.add_comm])

/-! ### Where PKDEC stops after the header -/

theorem exec_pkdec_of_payload_error (h0 : s.fault = 0) (hl : 62 ≤ s.left)
    (hd : udwDecode s (headerAt s s.pos.toNat) (s.pos.toNat + 62) = .error r) :
    exec .pkdec s = .next (s.faulted r.cause.code r.info) :=
  exec_of_body_error h0 (pkdecBody_of_payload_error hl hd)

/-- Behind a payload that is there whole the trailer's skip or its read finds too few bits (44_packet.md rule R163). -/
theorem exec_pkdec_of_short_trailer {payload : Payload} (h0 : s.fault = 0) (hle : 62 + 10 * wc ≤ s.left)
    (hlt : s.left < 72 + 10 * wc)
    (hd : udwDecode s (headerAt s s.pos.toNat) (s.pos.toNat + 62) = .ok (payload, s.pos.toNat + 62 + 10 * wc)) :
    exec .pkdec s = .next (s.faulted 1 (if s.left = 62 + 10 * wc then 1 else 9)) := by
  have hrest : s.len.toNat - (s.pos.toNat + 62 + 10 * wc) = s.left - (62 + 10 * wc) := by
    rw [State.left]
    omega
  have hskip : s.left - (62 + 10 * wc) < 1 ↔ s.left = 62 + 10 * wc := by omega
  refine exec_of_body_error (r := ⟨.truncatedInput, if s.left = 62 + 10 * wc then 1 else 9⟩) h0 ?_
  rw [instrBody, pkdecBody_of_payload (by omega) hd, trailerDecode_of_lt (by omega), hrest]
  simp only [hskip]
  rfl

/-- Settles O41: the payload stage stops PKDEC with the fault it meets first, and where it answers only the trailer can
be cut short. -/
theorem pkdecFaultsInWireOrder : Obligations.PkdecFaultsInWireOrder := by
  intro s h0 hhdr
  have hrest : s.len.toNat - (s.pos.toNat + 62) = s.left - 62 := Nat.sub_add_eq ..
  refine ⟨fun hpair => ?_, fun hdid hsdid => ?_⟩
  · have hpath := udwDecode_of_raw (s := s) (p := s.pos.toNat + 62) (isDelegated_headerAt.not.mpr hpair)
    rw [toNat_headerAt_wc] at hpath
    refine ⟨fun hlt => ?_, fun hle hlt => ?_⟩
    · exact exec_pkdec_of_payload_error (r := ⟨.truncatedInput, _⟩) h0 hhdr
        (hpath.trans (udwDecodeRaw_of_lt (by omega)))
    · exact exec_pkdec_of_short_trailer h0 hle hlt (hpath.trans (udwDecodeRaw_of_le (by omega)))
  · have hpath := udwDecode_of_delegated (s := s) (p := s.pos.toNat + 62) (isDelegated_headerAt.mpr ⟨hdid, hsdid⟩)
    rw [toNat_headerAt_wc] at hpath
    refine ⟨fun hlt => ?_, fun hle hwc => ?_, fun hle hwc hcodec => ?_, fun hle hlt hwc hcodec => ?_⟩
    · refine exec_pkdec_of_payload_error (r := ⟨.truncatedInput, if (s.left - 62) % 10 < 2 then 2 else 8⟩) h0 hhdr ?_
      rw [hpath, udwDecodeDelegated_of_lt (by omega), hrest]
    · exact exec_pkdec_of_payload_error (r := ⟨.descriptorUnderrun, _⟩) h0 hhdr
        (hpath.trans (udwDecodeDelegated_of_underrun (by omega) hwc))
    · rw [← drop_two_bytesAt] at hcodec
      exact exec_pkdec_of_payload_error (r := ⟨.payloadCodecFault, _⟩) h0 hhdr
        (hpath.trans (udwDecodeDelegated_of_codec_none (by omega) hwc hcodec))
    · obtain ⟨inner, hcodec⟩ := hcodec
      rw [← drop_two_bytesAt] at hcodec
      exact exec_pkdec_of_short_trailer h0 hle hlt
        (hpath.trans (udwDecodeDelegated_of_codec_some (by omega) hwc hcodec))

/-! ### The payload stage of PKENC -/

theorem udwEncode_raw_of_le {x : BitVec 2550} (hp : s.payload = .raw x) (hx : 2 ^ (10 * s.wc.toNat) ≤ x.toNat) :
    udwEncode s = .error ⟨.inconsistentWordCount, s.wc.toNat⟩ := by
  rw [udwEncode, hp]
  exact if_pos hx

theorem udwEncode_of_codec_none {desc : BitVec 16} (hp : s.payload = .delegated desc inner)
    (he : pcEncode s.params inner = none) : udwEncode s = .error ⟨.payloadCodecFault, 1⟩ := by
  rw [udwEncode, hp]
  simp only [udwEncodeDelegated, he]

theorem udwEncode_of_overflow {desc : BitVec 16} {ser : List Byte} (hp : s.payload = .delegated desc inner)
    (he : pcEncode s.params inner = some ser) (hw : 255 < (2 + ser.length) / 2) :
    udwEncode s = .error ⟨.wordCountOverflow, min (2 + ser.length) (2 ^ 24 - 1)⟩ := by
  have hl : ([desc.extractLsb' 8 8, desc.extractLsb' 0 8] ++ ser).length = 2 + ser.length := by
    rw [List.length_append, List.length_cons, List.length_cons, List.length_nil]
  rw [udwEncode, hp]
  simp only [udwEncodeDelegated, he, hl]
  exact if_pos hw

theorem exec_pkenc_of_payload_error (h0 : s.fault = 0) (hp : s.pstate ≠ .empty) (hd : udwEncode s = .error r) :
    exec .pkenc s = .next (s.faulted r.cause.code r.info) :=
  exec_of_body_error h0 (pkencBody_of_payload_error hp hd)

/-- Settles O47: PKENC needs a packet, and then the payload stage is the only one that can fault. -/
theorem pkencFaults : Obligations.PkencFaults := by
  intro s h0
  refine ⟨fun hp => ?_, fun hp x hx hle => ?_, fun hp desc inner hx he => ?_, fun hp desc inner ser hx he hw => ?_⟩
  · exact exec_of_body_error (r := ⟨.noPacket, 0⟩) h0 (if_pos hp)
  · exact exec_pkenc_of_payload_error (r := ⟨.inconsistentWordCount, _⟩) h0 hp (udwEncode_raw_of_le hx hle)
  · exact exec_pkenc_of_payload_error (r := ⟨.payloadCodecFault, _⟩) h0 hp (udwEncode_of_codec_none hx he)
  · exact exec_pkenc_of_payload_error (r := ⟨.wordCountOverflow, _⟩) h0 hp (udwEncode_of_overflow hx he hw)

end Sys2Proof.Machine
end

section
/-! PROOFS. A delegated packet sent round (spec/44_packet.md rule R172 (b)): PKENC, the host's copy of OUT to BUF, CINIT
OLEN, and what the second PKDEC finds there. -/

namespace Sys2Proof.Machine

variable {s t : State} {p k n wc' : Nat} {payload bits : Bits}

/-! ### A cursor opened over the output of PKENC -/

/-- The cursor is at the start of BUF, and these bits are what it covers. -/
structure State.OpenOver (s : State) (bits : Bits) : Prop where
  pos_eq : s.pos = 0
  len_eq : s.len.toNat = bits.length
  bufBits_eq : s.bufBits 0 bits.length = bits

theorem State.OpenOver.pos_toNat (h : s.OpenOver bits) : s.pos.toNat = 0 := by
  rw [h.pos_eq]
  rfl

theorem State.OpenOver.left_eq (h : s.OpenOver bits) : s.left = s.len.toNat := by
  rw [State.left, h.pos_toNat, Nat.sub_zero]

theorem State.bufBits_setBits (s : State) (bits : Bits) :
    ({ s with buf := s.buf.setBits 0 bits } : State).bufBits 0 bits.length = bits := by
  refine List.ext_getElem (State.length_bufBits ..) fun i _ hi => ?_
  rw [State.getElem_bufBits]
  exact s.bufBit_setBits_of_lt 0 hi

/-- CINIT OLEN after the host's copy opens the cursor over what OUT held (20_memory.md rule R60, 40_bitcursor.md rule
R102). -/
theorem copyOut_then_cinit (h0 : t.fault = 0) (hout : t.outBits = bits) (holen : t.olen.toNat = bits.length)
    (hroom : bits.length ≤ t.params.bufBits.toNat) :
    ∃ t1 t2, hostAct .copyOut t = .next t1 ∧ exec (.cinit t.olen.toNat) t1 = .next t2 ∧
      t2.fault = 0 ∧ t2.params = t.params ∧ t2.OpenOver bits := by
  subst hout
  refine ⟨_, _, hostWrite_of_le (by omega), exec_cinit_of_le h0 (holen ▸ hroom), h0, rfl, rfl, ?_,
    t.bufBits_setBits t.outBits⟩
  rw [← holen]
  exact (BitVec.toNat_ofNat ..).trans (Nat.mod_eq_of_lt (t.olen.isLt.trans (by decide)))

theorem length_packetBits_lt (hd : udwEncode s = .ok (payload, wc')) : (packetBits s payload wc').length < 2 ^ 13 :=
  (length_packetBits_le hd).trans_lt (by decide)

theorem outBits_encodedState (hd : udwEncode s = .ok (payload, wc')) :
    (encodedState s payload wc').outBits = packetBits s payload wc' :=
  State.outBits_writeOut _ _ (length_packetBits_lt hd)

/-- PKENC and then the copy and CINIT OLEN: the cursor is open over the packet sent. -/
theorem pkenc_then_reload (h0 : s.fault = 0) (hp : s.pstate ≠ .empty) (hd : udwEncode s = .ok (payload, wc'))
    (hroom : 72 + payload.length + padLen wc' ≤ s.params.bufBits.toNat) :
    ∃ t t1 t2, exec .pkenc s = .next t ∧ hostAct .copyOut t = .next t1 ∧
      exec (.cinit t.olen.toNat) t1 = .next t2 ∧ t2.fault = 0 ∧ t2.params = s.params ∧
      t2.OpenOver (packetBits s payload wc') := by
  have hfits := length_packetBits_lt hd
  have holen : (BitVec.ofNat 13 (packetBits s payload wc').length).toNat = (packetBits s payload wc').length := by
    rw [BitVec.toNat_ofNat, Nat.mod_eq_of_lt hfits]
  rw [← length_packetBits s] at hroom
  obtain ⟨t1, t2, hcopy, hcinit, hfault, hparams, hopen⟩ := copyOut_then_cinit
    (t := (encodedState s payload wc').completed (packetBits s payload wc').length) h0 (outBits_encodedState hd) holen
    hroom
  exact ⟨_, t1, t2, exec_pkenc_of_payload h0 hp hd, hcopy, hcinit, hfault, hparams, hopen⟩

/-! ### The packet under the cursor -/

/-- The header PKENC sends: the positions are the sentinels (42_headercodec.md rule R133). -/
def sentHeader (s : State) (wc' : Nat) : Header where
  c := s.c
  line := Config.lineSentinel
  hoff := Config.hoffSentinel
  sflag := s.sflag
  stream := s.stream
  did := s.did
  sdid := s.sdid
  wc := BitVec.ofNat 8 wc'

/-- The four parts of the packet under the cursor, in the wire order of 30_encoding.md rule R70. -/
theorem State.OpenOver.packet_parts (h : t.OpenOver (packetBits s payload wc')) :
    t.bufBits 0 62 = hdrEncode s.c s.sflag s.stream s.did s.sdid (BitVec.ofNat 8 wc') ∧
    t.bufBits 62 payload.length = payload ∧
    t.bufBits (62 + payload.length) 10 = trailerEncode s.cs ∧
    t.bufBits (62 + payload.length + 10) (padLen wc') = zeros (padLen wc') := by
  have hlen : (packetBits s payload wc').length = 62 + payload.length + 10 + padLen wc' := by
    rw [length_packetBits]
    omega
  have hall := h.bufBits_eq
  rw [hlen] at hall
  obtain ⟨hall, hpad⟩ := State.bufBits_eq_append hall (by simp [Nat.add_assoc])
  obtain ⟨hall, htrailer⟩ := State.bufBits_eq_append hall (by simp)
  obtain ⟨hheader, hpayload⟩ := State.bufBits_eq_append hall (by simp)
  simp only [Nat.zero_add] at hpayload htrailer hpad
  exact ⟨hheader, hpayload, htrailer, hpad⟩

theorem State.OpenOver.headerAt_eq (h : t.OpenOver (packetBits s payload wc')) :
    headerAt t t.pos.toNat = sentHeader s wc' := by
  obtain ⟨hheader, -⟩ := h.packet_parts
  rw [h.pos_toNat]
  exact headerAt_of_hdrEncode hheader

/-! ### Encoded bytes on the wire -/

/-- The wire word of each byte stands at its place (30_encoding.md rule R72). -/
theorem State.bufBits_of_encodeBytes {l : List Byte} (h : s.bufBits p (10 * l.length) = encodeBytes l)
    (hk : k < l.length) : s.bufBits (p + 10 * k) 10 = regBits (encodeByte l[k]) := by
  induction l generalizing p k with
  | nil => cases hk
  | cons b l ih =>
    rw [List.length_cons, Nat.mul_succ, Nat.add_comm] at h
    obtain ⟨hword, hrest⟩ := State.bufBits_eq_append h (length_regBits _)
    cases k with
    | zero => exact hword
    | succ k =>
      rw [show p + 10 * (k + 1) = p + 10 + 10 * k by omega]
      exact ih hrest (Nat.lt_of_succ_lt_succ hk)

theorem bytesAt_of_encodeBytes {l : List Byte} (h : s.bufBits p (10 * l.length) = encodeBytes l) (hn : n ≤ l.length) :
    bytesAt s n p = l.take n := by
  refine List.ext_getElem (by simp [bytesAt, hn]) fun i hi _ => ?_
  have hi : i < n := by simpa [bytesAt] using hi
  have hbyte := State.ofNat_memRead_of_encodeByte (s.bufBits_of_encodeBytes h (hi.trans_le hn))
  rw [Nat.add_right_comm] at hbyte
  simp [bytesAt, hbyte]

/-- The bits of a wire word after its first are its low ones: so PKDEC takes CS from a word that is no trailer. -/
theorem State.ofNat_memRead_succ_of_regBits {w : Nat} {v : BitVec (w + 1)} (h : s.bufBits p (w + 1) = regBits v) :
    BitVec.ofNat w (s.memRead (p + 1) w) = v.extractLsb' 0 w := by
  have htile : s.memRead p (w + 1) = s.memRead p 1 * 2 ^ w + s.memRead (p + 1) w := by
    rw [Nat.add_comm w 1]
    exact successiveReadsTile s p 1 w
  have hword : s.memRead p (w + 1) = v.toNat := by rw [State.memRead, h, val_regBits]
  apply BitVec.eq_of_toNat_eq
  rw [BitVec.extractLsb'_toNat, BitVec.toNat_ofNat, Nat.shiftRight_zero, ← hword, htile, Nat.mul_add_mod']

theorem ofNat_desc_bytes (desc : BitVec 16) :
    BitVec.ofNat 16 ((desc.extractLsb' 8 8).toNat * 256 + (desc.extractLsb' 0 8).toNat) = desc := by
  have hlt := desc.isLt
  apply BitVec.eq_of_toNat_eq
  simp only [BitVec.toNat_ofNat, BitVec.extractLsb'_toNat, Nat.shiftRight_eq_div_pow]
  omega

/-! ### The second PKDEC -/

/-- The payload bytes of a delegated packet: the descriptor's two, then the PayloadCodec's (43_payloadresolver.md rule
R148). -/
def sentBytes (desc : BitVec 16) (ser : List Byte) : List Byte := desc.extractLsb' 8 8 :: desc.extractLsb' 0 8 :: ser

@[simp] theorem length_sentBytes (desc : BitVec 16) (ser : List Byte) : (sentBytes desc ser).length = 2 + ser.length := by
  simp only [sentBytes, List.length_cons]
  omega

section
variable {desc : BitVec 16} {inner inner' : Inner} {ser : List Byte}

theorem toNat_sentHeader_wc (s : State) (hwc : wc' ≤ 255) : (sentHeader s wc').wc.toNat = wc' :=
  (BitVec.toNat_ofNat ..).trans (Nat.mod_eq_of_lt (Nat.lt_succ_of_le hwc))

/-- PKENC of a delegated packet, the copy and CINIT OLEN: the cursor is open over all the payload bytes, under half their
count (43_payloadresolver.md rule R150). -/
theorem pkenc_delegated_then_reload (h0 : s.fault = 0) (hp : s.pstate ≠ .empty) (hx : s.payload = .delegated desc inner)
    (hser : pcEncode s.params inner = some ser) (hwc : (2 + ser.length) / 2 = wc') (hle : wc' ≤ 255)
    (hroom : 72 + 10 * (2 + ser.length) + padLen wc' ≤ s.params.bufBits.toNat) :
    ∃ t t1 t2, exec .pkenc s = .next t ∧ hostAct .copyOut t = .next t1 ∧
      exec (.cinit t.olen.toNat) t1 = .next t2 ∧ t2.fault = 0 ∧ t2.params = s.params ∧
      t2.OpenOver (packetBits s (encodeBytes (sentBytes desc ser)) wc') := by
  have hd : udwEncode s = .ok (encodeBytes (sentBytes desc ser), wc') := by
    subst hwc
    exact udwEncode_delegated hx hser hle
  refine pkenc_then_reload h0 hp hd ?_
  rwa [length_encodeBytes, length_sentBytes]

theorem State.OpenOver.len_of_delegated (h : t.OpenOver (packetBits s (encodeBytes (sentBytes desc ser)) wc')) :
    t.len.toNat = 72 + 10 * (2 + ser.length) + padLen wc' := by
  rw [h.len_eq, length_packetBits, length_encodeBytes, length_sentBytes]

/-- The second decode takes the delegated path with the halved word count (43_payloadresolver.md rules R142, R150). -/
theorem State.OpenOver.udwDecode_eq (h : t.OpenOver (packetBits s payload wc')) (hdid : s.did = 0x41)
    (hsdid : s.sdid = 0x07) (hwc : wc' ≤ 255) :
    udwDecode t (headerAt t t.pos.toNat) (t.pos.toNat + 62) = udwDecodeDelegated t wc' 62 := by
  have hdel : isDelegated (sentHeader s wc').did (sentHeader s wc').sdid = true := isDelegated_iff.mpr ⟨hdid, hsdid⟩
  rw [h.headerAt_eq, h.pos_toNat, udwDecode_of_delegated hdel, toNat_sentHeader_wc s hwc]

theorem State.OpenOver.bufBits_sentBytes (h : t.OpenOver (packetBits s (encodeBytes (sentBytes desc ser)) wc')) :
    t.bufBits 62 (10 * (sentBytes desc ser).length) = encodeBytes (sentBytes desc ser) := by
  obtain ⟨-, hbits, -⟩ := h.packet_parts
  rwa [length_encodeBytes] at hbits

variable {m : Nat}

/-- The payload stage of the second decode: the descriptor comes back, and the PayloadCodec is given the first `m` of its
bytes. -/
theorem State.OpenOver.udwDecodeDelegated_eq
    (h : t.OpenOver (packetBits s (encodeBytes (sentBytes desc ser)) (m + 2))) (hm : m < ser.length)
    (hcodec : pcDecode t.params (ser.take m) = some inner') :
    udwDecodeDelegated t (m + 2) 62 = .ok (.delegated desc inner', 62 + 10 * (m + 2)) := by
  have hlen := h.len_of_delegated
  have hbytes : bytesAt t (m + 2) 62 = sentBytes desc (ser.take m) :=
    bytesAt_of_encodeBytes h.bufBits_sentBytes (by rw [length_sentBytes]; omega)
  have hgiven : pcDecode t.params ((bytesAt t (m + 2) 62).drop 2) = some inner' := hbytes ▸ hcodec
  rw [udwDecodeDelegated_of_codec_some (by omega) (by omega) hgiven, hbytes]
  exact congrArg (fun d => Except.ok (Payload.delegated d inner', 62 + 10 * (m + 2))) (ofNat_desc_bytes desc)

/-- Where the second decode looks for CS stands the wire word of the first byte left over. -/
theorem State.OpenOver.cs_field_of_delegated
    (h : t.OpenOver (packetBits s (encodeBytes (sentBytes desc ser)) (m + 2))) (hm : m < ser.length) :
    BitVec.ofNat 9 (t.field (63 + 10 * (m + 2)) 9) = (encodeByte (ser.getD m 0)).extractLsb' 0 9 := by
  have hword := t.bufBits_of_encodeBytes (k := m + 2) h.bufBits_sentBytes (by rw [length_sentBytes]; omega)
  have haddr : t.pos.toNat + (63 + 10 * (m + 2)) = 62 + 10 * (m + 2) + 1 := by
    rw [h.pos_toNat]
    omega
  rw [State.field, haddr, State.ofNat_memRead_succ_of_regBits hword, List.getD_eq_getElem ser 0 hm]
  rfl

/-- Where the halved word count leaves the descriptor and `m` bytes that the PayloadCodec takes, PKDEC completes. -/
theorem State.OpenOver.exec_pkdec (h : t.OpenOver (packetBits s (encodeBytes (sentBytes desc ser)) (m + 2)))
    (h0 : t.fault = 0) (hdid : s.did = 0x41) (hsdid : s.sdid = 0x07) (hwc : m + 2 ≤ 255) (hm : m < ser.length)
    (hcodec : pcDecode t.params (ser.take m) = some inner') :
    exec .pkdec t = .next (State.completed ((t.materialise (sentHeader s (m + 2)) (.delegated desc inner')
      ((encodeByte (ser.getD m 0)).extractLsb' 0 9)).setPos (72 + 10 * (m + 2))) (72 + 10 * (m + 2))) := by
  have hleft : 72 + 10 * (m + 2) ≤ t.left := by
    rw [h.left_eq, h.len_of_delegated]
    omega
  have hfield : t.field 54 8 = m + 2 := by rw [← toNat_headerAt_wc, h.headerAt_eq, toNat_sentHeader_wc s hwc]
  have hpayload := (h.udwDecode_eq hdid hsdid hwc).trans (h.udwDecodeDelegated_eq hm hcodec)
  have he := exec_pkdec_of_payload (payload := .delegated desc inner') h0 (hfield ▸ hleft)
    (by rw [hpayload, hfield, h.pos_toNat])
  rwa [hfield, h.cs_field_of_delegated hm, h.headerAt_eq, h.pos_toNat, Nat.zero_add] at he

/-- Settles O52: half of the n payload bytes, with n of 4 to 511, are the descriptor and `m` more, and the byte after them
is there to be taken for the trailer. -/
theorem delegatedPacketRoundTrip : Obligations.DelegatedPacketRoundTrip := by
  intro s desc inner inner' ser h0 hp hdid hsdid hx hser hlen hle hcodec hroom
  obtain ⟨m, hm⟩ : ∃ m, (2 + ser.length) / 2 = m + 2 := ⟨ser.length / 2 - 1, by omega⟩
  rw [hm, Nat.add_sub_cancel] at hcodec ⊢
  rw [hm] at hle hroom
  obtain ⟨t, t1, t2, hpkenc, hcopy, hcinit, hfault, hparams, hopen⟩ :=
    pkenc_delegated_then_reload h0 hp hx hser hm hle hroom
  have hpkdec := hopen.exec_pkdec hfault hdid hsdid hle (by omega) (hparams ▸ hcodec)
  exact ⟨t, t1, t2, _, hpkenc, hcopy, hcinit, hpkdec, hfault, rfl, rfl, rfl, rfl, rfl, toNat_sentHeader_wc s hle,
    rfl, rfl, rfl, rfl⟩

/-- Settles O53: half of two or three payload bytes is one, no room for the descriptor. -/
theorem shortDelegatedPacketIsNotDecodedAgain : Obligations.ShortDelegatedPacketIsNotDecodedAgain := by
  intro s desc inner ser h0 hp hdid hsdid hx hser hlen hroom
  obtain ⟨t, t1, t2, hpkenc, hcopy, hcinit, hfault, -, hopen⟩ :=
    pkenc_delegated_then_reload h0 hp hx hser (by omega) (by decide) hroom
  have hbits := hopen.len_of_delegated
  have hpayload := hopen.udwDecode_eq hdid hsdid (by decide)
  rw [udwDecodeDelegated_of_underrun (by omega) (by decide)] at hpayload
  exact ⟨t, t1, t2, hpkenc, hcopy, hcinit,
    exec_pkdec_of_payload_error (r := ⟨.descriptorUnderrun, 1⟩) hfault (by rw [hopen.left_eq]; omega) hpayload⟩

end

end Sys2Proof.Machine
end

section
/-! PROOFS. The packet commands as a whole (spec/44_packet.md): the padding length, what PKDEC and PKENC leave unchanged,
how long the output is, and that a second PKENC gives it again. -/

namespace Sys2Proof.Machine

variable {s t : State} {i : Instr} {wc' : Nat} {bits : Bits} {x : BitVec 2550}

/-! ### The padding length (rules R167, R168) -/

/-- Settles O33: the rule of PADLEN is a value of its operand alone, and cannot fault. -/
theorem padlenCompletes : Obligations.PadlenCompletes :=
  ⟨fun _ => rfl, fun _ _ h0 => exec_of_body_ok h0 rfl⟩

theorem padLen_eq (w : Nat) : padLen w = 32 - (10 * w + 8) % 32 := rfl

theorem padLen_mod_sixteen (w : Nat) : padLen (w % 16) = padLen w := by
  rw [padLen_eq, padLen_eq]
  omega

theorem padLen_table : ∀ r < 16,
    padLen r = [24, 14, 4, 26, 16, 6, 28, 18, 8, 30, 20, 10, 32, 22, 12, 2].getD r 0 ∧ (padLen r = 32 ↔ r = 12) := by
  decide

/-- Settles O34: 10 * 16 is a multiple of 32, so the table of the sixteen residues is the whole law. -/
theorem paddingLengthLaw : Obligations.PaddingLengthLaw := by
  intro w
  have hmod : w % 16 < 16 := Nat.mod_lt w (by decide)
  obtain ⟨htable, hmax⟩ := padLen_table (w % 16) hmod
  rw [padLen_mod_sixteen] at htable hmax
  obtain ⟨hlow, hhigh⟩ := padLen_bounds w
  have hformula := padLen_eq w
  exact ⟨hformula, by omega, by omega, hlow, hhigh, htable, hmax⟩

/-! ### The frames of PKDEC and PKENC -/

/-- A command that does not run in the Faulted condition completes from FAULT = 0, or writes no more than FAULT, FINFO and
the response (60_exceptions.md rules R230, R231). -/
theorem exec_completes_or_faults (he : exec i s = .next t) (hr : runsFaulted i = false) :
    (s.fault = 0 ∧ ∃ u v, instrBody i s = .ok (u, v) ∧ t = u.completed v) ∨
    ∃ k info a, k ≠ 0 ∧ t = { s with fault := k, finfo := info, resp := a } := by
  obtain ⟨u, v, hb, rfl, h0 | hrun⟩ | ⟨r, -, rfl, -⟩ | ⟨hne, -, rfl⟩ := exec_cases he
  · exact .inl ⟨h0, u, v, hb, rfl⟩
  · exact absurd (hr.symm.trans hrun) Bool.false_ne_true
  · exact .inr ⟨_, _, _, r.cause.code_ne_zero, rfl⟩
  · exact .inr ⟨_, _, _, hne, rfl⟩

/-- Settles O42: a completed PKDEC writes the packet registers, PSTATE and POS; one that does not complete writes none of
them. -/
theorem pkdecFrame : Obligations.PkdecFrame := by
  intro s t he
  obtain ⟨h0, u, v, hb, rfl⟩ | ⟨k, info, a, -, rfl⟩ := exec_completes_or_faults he rfl
  · obtain ⟨payload, p, -, -, rfl, -, -⟩ := pkdecBody_ok hb
    exact ⟨rfl, fun _ => rfl, fun _ => rfl, fun hf => absurd h0 hf⟩
  · exact ⟨rfl, fun _ => rfl, fun _ => rfl, fun _ => rfl⟩

/-- What PKENC does: it completes with the payload stage's answer, or it writes no more than FAULT, FINFO and the
response (rule R170). -/
theorem exec_pkenc_cases (he : exec .pkenc s = .next t) :
    (∃ bits wc', s.fault = 0 ∧ udwEncode s = .ok (bits, wc') ∧
      t = (encodedState s bits wc').completed (packetBits s bits wc').length) ∨
    ∃ k info a, k ≠ 0 ∧ t = { s with fault := k, finfo := info, resp := a } := by
  obtain ⟨h0, u, v, hb, rfl⟩ | hfaulted := exec_completes_or_faults he rfl
  · obtain ⟨bits, wc', -, hd, rfl, rfl⟩ := pkencBody_ok hb
    exact .inl ⟨bits, wc', h0, hd, rfl⟩
  · exact .inr hfaulted

theorem ofNat_toNat_wc (s : State) : BitVec.ofNat 8 s.wc.toNat = s.wc := by
  rw [BitVec.ofNat_toNat, BitVec.setWidth_eq]

/-- On the raw path the word count PKENC sends is the one WC holds (43_payloadresolver.md rule R149). -/
theorem encodedState_wc_of_raw (hd : udwEncode s = .ok (bits, wc')) (hx : s.payload = .raw x) :
    (encodedState s bits wc').wc = s.wc := by
  obtain ⟨_, -, -, rfl, -⟩ | ⟨_, _, _, hx', -⟩ := udwEncode_ok hd
  · exact ofNat_toNat_wc s
  · cases hx.symm.trans hx'

theorem toNat_olen_encodedState (hd : udwEncode s = .ok (bits, wc')) :
    (encodedState s bits wc').olen.toNat = (packetBits s bits wc').length :=
  (BitVec.toNat_ofNat ..).trans (Nat.mod_eq_of_lt (length_packetBits_lt hd))

/-- The cells of OUT that a completed PKENC leaves a value in (10_state.md rule R31). -/
theorem isSome_out_encodedState (hd : udwEncode s = .ok (bits, wc')) (a : Nat) :
    ((encodedState s bits wc').out.get? a).isSome = decide (a < (encodedState s bits wc').olen.toNat) := by
  have hcell : (encodedState s bits wc').out.get? a = (packetBits s bits wc')[a]? :=
    (BitMem.get?_ofBits 0 a _).trans (if_pos (Nat.zero_le a))
  rw [hcell, toNat_olen_encodedState hd, Bool.eq_iff_iff, decide_eq_true_iff, isSome_getElem?]

/-- Settles O48: a completed PKENC writes LINE, HOFF, WC, PSTATE and the output; one that does not complete writes none of
them. -/
theorem pkencFrame : Obligations.PkencFrame := by
  intro s t he
  obtain ⟨bits, wc', h0, hd, rfl⟩ | ⟨k, info, a, hk, rfl⟩ := exec_pkenc_cases he
  · refine ⟨rfl, fun hraw => ?_, fun _ => rfl, fun _ => isSome_out_encodedState hd, fun hf => absurd h0 hf⟩
    obtain ⟨x, hx⟩ := State.utag_eq_zero_iff.mp hraw
    exact encodedState_wc_of_raw hd hx
  · exact ⟨rfl, fun _ => rfl, fun _ => rfl, fun hf => absurd hf hk, fun _ _ => rfl⟩

/-! ### The length of the output (rules R169, R171) -/

theorem packet_length_mod (w : Nat) : (72 + 10 * w + padLen w) % 32 = 0 := by
  rw [padLen_eq]
  omega

theorem length_packetBits_of_raw (hd : udwEncode s = .ok (bits, wc')) (hx : s.payload = .raw x) :
    (packetBits s bits wc').length = 72 + 10 * s.wc.toNat + padLen s.wc.toNat := by
  obtain ⟨y, -, -, rfl, rfl⟩ | ⟨_, _, _, hx', -⟩ := udwEncode_ok hd
  · rw [length_packetBits, length_bitsOf]
  · cases hx.symm.trans hx'

/-- The `n` payload bytes all go out, under half their number (rule R169). -/
theorem length_packetBits_of_delegated {desc : BitVec 16} {inner : Inner} (hd : udwEncode s = .ok (bits, wc'))
    (hx : s.payload = .delegated desc inner) :
    ∃ n, 2 ≤ n ∧ n ≤ 511 ∧ wc' = n / 2 ∧ (packetBits s bits wc').length = 72 + 10 * n + padLen (n / 2) := by
  obtain ⟨y, hx', -⟩ | ⟨desc', _, ser, -, -, rfl, hle, rfl⟩ := udwEncode_ok hd
  · cases hx.symm.trans hx'
  · refine ⟨(sentBytes desc' ser).length, ?_⟩
    have hlen := length_packetBits s (encodeBytes (sentBytes desc' ser)) ((2 + ser.length) / 2)
    rw [length_encodeBytes] at hlen
    rw [length_sentBytes] at hlen ⊢
    exact ⟨by omega, by omega, rfl, hlen⟩

theorem State.utag_ne_zero_iff : s.utag ≠ 0 ↔ ∃ d inner, s.payload = .delegated d inner := by
  unfold State.utag
  cases s.payload <;> simp

/-- Settles O49: the output is its header, payload and trailer, then its padding, which on the raw path fills the last 32
bits. -/
theorem outputLength : Obligations.OutputLength := by
  intro s t he _ hf
  obtain ⟨bits, wc', -, hd, rfl⟩ | ⟨_, _, _, hk, rfl⟩ := exec_pkenc_cases he
  · rw [State.completed_olen, toNat_olen_encodedState hd]
    refine ⟨length_packetBits_le hd, rfl, fun hraw => ?_, fun hdel => ?_⟩
    · obtain ⟨x, hx⟩ := State.utag_eq_zero_iff.mp hraw
      rw [length_packetBits_of_raw hd hx]
      exact ⟨rfl, packet_length_mod s.wc.toNat⟩
    · obtain ⟨desc, inner, hx⟩ := State.utag_ne_zero_iff.mp hdel
      obtain ⟨n, hn, hn511, rfl, hlen⟩ := length_packetBits_of_delegated hd hx
      exact ⟨n, hn, hn511, (BitVec.toNat_ofNat ..).trans (Nat.mod_eq_of_lt (by omega)), hlen⟩
  · exact absurd hf hk

/-! ### A second PKENC (rule R173) -/

/-- The payload stage reads no register that PKENC writes, but WC on the raw path, where PKENC writes back what it read. -/
theorem udwEncode_encodedState (hd : udwEncode s = .ok (bits, wc')) :
    udwEncode (encodedState s bits wc') = .ok (bits, wc') := by
  obtain ⟨x, hx, hlt, rfl, rfl⟩ | ⟨desc, inner, ser, hx, hser, rfl, hle, rfl⟩ := udwEncode_ok hd
  · have hwc := encodedState_wc_of_raw hd hx
    have henc := udwEncode_raw (s := encodedState s (bitsOf (10 * s.wc.toNat) x.toNat) s.wc.toNat) hx (hwc.symm ▸ hlt)
    rwa [hwc] at henc
  · exact udwEncode_delegated hx hser hle

/-- Settles O50: the second PKENC is given the first one's payload and word count, and sends the same header. -/
theorem pkencIsIdempotent : Obligations.PkencIsIdempotent := by
  intro s t he _ hf
  obtain ⟨bits, wc', -, hd, rfl⟩ | ⟨_, _, _, hk, rfl⟩ := exec_pkenc_cases he
  · have hpacket : ((encodedState s bits wc').completed (packetBits s bits wc').length).pstate ≠ .empty := nofun
    have hagain : udwEncode ((encodedState s bits wc').completed (packetBits s bits wc').length) = .ok (bits, wc') :=
      udwEncode_encodedState (s := s) hd
    exact exec_pkenc_of_payload hf hpacket hagain
  · exact absurd hf hk

end Sys2Proof.Machine
end

section
/-! PROOFS. A raw packet sent round (spec/44_packet.md rule R172 (a)): what the second PKDEC finds in the output that the host
copied to BUF. -/

namespace Sys2Proof.Machine

variable {s t : State} {a wc' : Nat} {bits : Bits} {x : BitVec 2550}

/-! ### The parts behind the payload -/

theorem State.OpenOver.len_of_packet (h : t.OpenOver (packetBits s bits wc')) :
    t.len.toNat = 72 + bits.length + padLen wc' := by
  rw [h.len_eq, length_packetBits]

/-- The nine bits of CS stand after the inverse-parity bit (rule R165). -/
theorem State.OpenOver.cs_field (h : t.OpenOver (packetBits s bits wc')) :
    BitVec.ofNat 9 (t.field (63 + bits.length) 9) = s.cs := by
  obtain ⟨-, -, htrailer, -⟩ := h.packet_parts
  obtain ⟨-, hcs⟩ := State.bufBits_eq_append (m := 1) (n := 9) (l := [!s.cs.getLsbD 8]) htrailer rfl
  have haddr : t.pos.toNat + (63 + bits.length) = 62 + bits.length + 1 := by
    rw [h.pos_toNat]
    omega
  rw [State.field, haddr, State.ofNat_memRead_of_regBits hcs]

/-- Behind the trailer stands the padding alone (rule R167). -/
theorem State.OpenOver.bufBit_padding (h : t.OpenOver (packetBits s bits wc')) (hlow : 72 + bits.length ≤ a)
    (hhigh : a < t.len.toNat) : t.bufBit a = false := by
  obtain ⟨-, -, -, hpad⟩ := h.packet_parts
  rw [h.len_of_packet] at hhigh
  obtain ⟨j, rfl⟩ : ∃ j, a = 62 + bits.length + 10 + j := ⟨a - (72 + bits.length), by omega⟩
  rw [← State.getElem_bufBits t _ (padLen wc') j (by rw [State.length_bufBits]; omega)]
  simp only [hpad, zeros, List.getElem_replicate]

/-! ### The second PKDEC -/

theorem sentHeader_wc_self (s : State) : (sentHeader s s.wc.toNat).wc = s.wc := ofNat_toNat_wc s

section
variable (h : t.OpenOver (packetBits s (bitsOf (10 * s.wc.toNat) x.toNat) s.wc.toNat))
  (hraw : ¬ isDelegated s.did s.sdid = true) (hx : x.toNat < 2 ^ (10 * s.wc.toNat))
include h hraw hx

/-- The second decode takes the raw path and reads the value at the width it was sent with. -/
theorem State.OpenOver.udwDecode_raw_eq :
    udwDecode t (headerAt t t.pos.toNat) (t.pos.toNat + 62) = .ok (.raw x, 62 + 10 * s.wc.toNat) := by
  obtain ⟨-, hbits, -⟩ := h.packet_parts
  have hlen := h.len_of_packet
  rw [length_bitsOf] at hbits hlen
  have hvalue : t.memRead 62 (10 * s.wc.toNat) = x.toNat := by
    rw [State.memRead, hbits, val_bitsOf, Nat.mod_eq_of_lt hx]
  have hpath : ¬ isDelegated (sentHeader s s.wc.toNat).did (sentHeader s s.wc.toNat).sdid = true := hraw
  rw [h.headerAt_eq, h.pos_toNat, udwDecode_of_raw hpath, sentHeader_wc_self,
    udwDecodeRaw_of_le (by omega), hvalue, BitVec.ofNat_toNat, BitVec.setWidth_eq]

/-- The second decode of a raw packet completes with all that was sent. -/
theorem State.OpenOver.exec_pkdec_raw (h0 : t.fault = 0) :
    exec .pkdec t = .next (State.completed ((t.materialise (sentHeader s s.wc.toNat) (.raw x) s.cs).setPos
      (72 + 10 * s.wc.toNat)) (72 + 10 * s.wc.toNat)) := by
  have hlen := h.len_of_packet
  have hcs := h.cs_field
  rw [length_bitsOf] at hlen hcs
  have hfield : t.field 54 8 = s.wc.toNat := by
    rw [← toNat_headerAt_wc, h.headerAt_eq, sentHeader_wc_self]
  have hleft : 72 + 10 * t.field 54 8 ≤ t.left := by
    rw [h.left_eq, hfield]
    omega
  have he := exec_pkdec_of_payload (payload := .raw x) h0 hleft
    (by rw [h.udwDecode_raw_eq hraw hx, hfield, h.pos_toNat])
  rwa [hfield, hcs, h.headerAt_eq, h.pos_toNat, Nat.zero_add] at he

end

/-- A completed PKDEC that leaves UTAG 0 leaves what PKENC needs on the raw path, and a pair of data IDs that is not the
delegated one (10_state.md rule R28). -/
theorem exec_pkdec_leaves_raw (he : exec .pkdec s = .next t) (h0 : s.fault = 0) (hf : t.fault = 0) (htag : t.utag = 0) :
    t.pstate ≠ .empty ∧ ¬ isDelegated t.did t.sdid = true ∧
      ∃ x, t.payload = .raw x ∧ x.toNat < 2 ^ (10 * t.wc.toNat) := by
  obtain ⟨hkind, hwidth, -, -⟩ := completedDecodeMeetsThePacketInvariants s t he h0 hf
  obtain ⟨-, -, hdecoded, -⟩ := packetLifecycle .pkdec s t he
  obtain ⟨x, hx⟩ := State.utag_eq_zero_iff.mp htag
  refine ⟨by rw [hdecoded rfl hf]; nofun, fun hdel => ?_, x, hx, hwidth x hx⟩
  have hone := hkind.mpr (isDelegated_iff.mp hdel)
  rw [htag] at hone
  cases hone

/-- Settles O51: the output fills the reopened cursor, and the second decode finds each part where PKENC put it. -/
theorem rawPacketRoundTrip : Obligations.RawPacketRoundTrip := by
  intro s0 s he h0 hf htag hroom
  obtain ⟨hp, hraw, x, hx, hlt⟩ := exec_pkdec_leaves_raw he h0 hf htag
  obtain ⟨t, t1, t2, hpkenc, hcopy, hcinit, hfault, -, hopen⟩ :=
    pkenc_then_reload hf hp (udwEncode_raw hx hlt) (by rwa [length_bitsOf])
  have hlen := hopen.len_of_packet
  have hpos : (BitVec.ofNat 24 (72 + 10 * s.wc.toNat)).toNat = 72 + 10 * s.wc.toNat := by
    have hwc := s.wc.isLt
    exact (BitVec.toNat_ofNat ..).trans (Nat.mod_eq_of_lt (by omega))
  refine ⟨t, t1, t2, _, hpkenc, hcopy, hcinit, hopen.exec_pkdec_raw hraw hlt hfault, hfault, rfl, rfl, rfl, rfl, rfl,
    ofNat_toNat_wc s, hx.symm, rfl, rfl, rfl, hpos, ?_, fun a hlow hhigh => hopen.bufBit_padding ?_ hhigh⟩
  · rwa [length_bitsOf] at hlen
  · rw [length_bitsOf, ← hpos]
    exact hlow

end Sys2Proof.Machine
end

section
/-! PROOFS. The system commands (spec/45_system.md): the checks of a register operand and their order, the frames of WRREG
and WRU, and RST in full. -/

namespace Sys2Proof.Machine

variable {s u : State} {r : BitVec 8} {v : BitVec 16} {reg reg' : Reg} {e : Raised}

/-! ### The register operand (rule R181) -/

theorem readOperand_of_reserved (hr : Reg.ofAddr r = none) : readOperand s r = .error ⟨.badOperand, r.toNat⟩ := by
  rw [readOperand, hr]

theorem readOperand_of_some (hr : Reg.ofAddr r = some reg) : readOperand s r = checkReg s r reg := by
  rw [readOperand, hr]

theorem writeOperand_of_reserved (hr : Reg.ofAddr r = none) : writeOperand s r v = .error ⟨.badOperand, r.toNat⟩ := by
  rw [writeOperand, hr]

theorem writeOperand_of_readOnly (hr : Reg.ofAddr r = some reg) (hw : reg.writable = false) :
    writeOperand s r v = .error ⟨.badOperand, r.toNat⟩ := by
  rw [writeOperand, hr]
  exact if_neg (by rw [hw]; decide)

/-- A writable register's operand: what the packet and the payload kind decide, then the width of the value. -/
theorem writeOperand_of_writable (hr : Reg.ofAddr r = some reg) (hw : reg.writable = true) :
    writeOperand s r v = (checkReg s r reg).bind fun reg =>
      if v.toNat < 2 ^ reg.width then .ok reg else .error ⟨.badOperand, r.toNat⟩ := by
  rw [writeOperand, hr]
  exact if_pos hw

theorem writeOperand_of_checkReg_error (hr : Reg.ofAddr r = some reg) (hw : reg.writable = true)
    (hc : checkReg s r reg = .error e) : writeOperand s r v = .error e := by
  rw [writeOperand_of_writable hr hw, hc]
  rfl

theorem writeOperand_of_wide (hr : Reg.ofAddr r = some reg) (hw : reg.writable = true)
    (hc : checkReg s r reg = .ok reg) (hv : 2 ^ reg.width ≤ v.toNat) :
    writeOperand s r v = .error ⟨.badOperand, r.toNat⟩ := by
  rw [writeOperand_of_writable hr hw, hc]
  exact if_neg hv.not_gt

/-- DESC is not held while the payload is raw (10_state.md rule R26). -/
theorem checkReg_desc_of_raw (hp : s.pstate ≠ .empty) (ht : s.utag = 0) :
    checkReg s r .desc = .error ⟨.badOperand, r.toNat⟩ := by
  rw [checkReg, if_neg fun h => hp h.2]
  exact if_pos ⟨rfl, ht⟩

theorem exec_rdreg_of_error (h0 : s.fault = 0) (h : readOperand s r = .error e) :
    exec (.rdreg r) s = .next (s.faulted e.cause.code e.info) :=
  exec_of_body_error h0 (by rw [instrBody, rdregBody, h, except_bind_error])

theorem exec_wrreg_of_error (h0 : s.fault = 0) (h : writeOperand s r v = .error e) :
    exec (.wrreg r v) s = .next (s.faulted e.cause.code e.info) :=
  exec_of_body_error h0 (by rw [instrBody, wrregBody, h, except_bind_error])

/-! ### The register map (10_state.md rule R34) -/

/-- A packet register's address names a packet register, which the host may write unless it is UTAG. -/
theorem Reg.ofAddr_of_le (hr : r.toNat ≤ 0x0A) :
    ∃ reg, Reg.ofAddr r = some reg ∧ reg.isStatus = false ∧ (r ≠ 0x09 → reg.writable = true) := by
  obtain ⟨hnone, hsome⟩ := Reg.ofAddr_spec r
  cases hreg : Reg.ofAddr r with
  | none =>
    have hreserved := hnone.mp hreg
    omega
  | some reg =>
    obtain ⟨hstatus, hwritable, -⟩ := hsome reg hreg
    refine ⟨reg, rfl, hstatus.trans ?_, fun hne => hwritable.trans ?_⟩
    · simp only [isStatusAddr, Bool.and_eq_false_iff, decide_eq_false_iff_not]
      omega
    · exact decide_eq_true ⟨hr, fun h => hne (BitVec.eq_of_toNat_eq h)⟩

/-- UTAG and the status registers are read-only. -/
theorem Reg.ofAddr_of_readOnly (hr : r = 0x09 ∨ (0x10 ≤ r.toNat ∧ r.toNat ≤ 0x15)) :
    ∃ reg, Reg.ofAddr r = some reg ∧ reg.writable = false := by
  obtain rfl | hstatus := hr
  · exact ⟨.utag, rfl, rfl⟩
  · have haddr : isStatusAddr r = true := by simpa [isStatusAddr] using hstatus
    obtain ⟨reg, hreg, -⟩ := ofAddr_of_isStatusAddr haddr
    obtain ⟨-, hwritable, -⟩ := (Reg.ofAddr_spec r).2 reg hreg
    exact ⟨reg, hreg, hwritable.trans (decide_eq_false (by omega))⟩

/-- Settles O55: the address decides, then the packet, then the payload kind, then the value. -/
theorem registerOperandChecks : Obligations.RegisterOperandChecks := by
  intro s r v h0
  refine ⟨fun hreserved => ?_, fun hreadOnly => ?_, fun hle hp => ?_, fun hdesc hp ht => ?_, fun hle hp hv => ?_⟩
  · have hr := (Reg.ofAddr_spec r).1.mpr hreserved
    exact ⟨exec_rdreg_of_error h0 (readOperand_of_reserved hr), exec_wrreg_of_error h0 (writeOperand_of_reserved hr)⟩
  · obtain ⟨reg, hr, hw⟩ := Reg.ofAddr_of_readOnly hreadOnly
    exact exec_wrreg_of_error h0 (writeOperand_of_readOnly hr hw)
  · obtain ⟨reg, hr, hpacket, hw⟩ := Reg.ofAddr_of_le hle
    have hc := checkReg_of_empty (r := r) hp hpacket
    exact ⟨exec_rdreg_of_error h0 ((readOperand_of_some hr).trans hc),
      fun hne => exec_wrreg_of_error h0 (writeOperand_of_checkReg_error hr (hw hne) hc)⟩
  · have hr : Reg.ofAddr r = some .desc := congrArg Reg.ofAddr hdesc
    have hc := checkReg_desc_of_raw (r := r) hp ht
    exact ⟨exec_rdreg_of_error h0 ((readOperand_of_some hr).trans hc),
      exec_wrreg_of_error h0 (writeOperand_of_checkReg_error hr rfl hc)⟩
  · obtain ⟨reg, hr, -, hw⟩ := Reg.ofAddr_of_le (by omega : r.toNat ≤ 0x0A)
    obtain ⟨-, -, hdesc, hwidth⟩ := (Reg.ofAddr_spec r).2 reg hr
    have hc : checkReg s r reg = .ok reg := checkReg_of_packet hp fun h => absurd (hdesc.mp h ▸ hle) (by decide)
    have hne : r ≠ 0x09 := fun h => absurd (h ▸ hle) (by decide)
    exact exec_wrreg_of_error h0 (writeOperand_of_wide hr (hw hne) hc (by rwa [hwidth hle]))

/-! ### A register write (rule R183) -/

/-- The address of a register (10_state.md rule R34). -/
def Reg.addr : Reg → BitVec 8
  | .c => 0x00
  | .line => 0x01
  | .hoff => 0x02
  | .s => 0x03
  | .stream => 0x04
  | .did => 0x05
  | .sdid => 0x06
  | .wc => 0x07
  | .cs => 0x08
  | .utag => 0x09
  | .desc => 0x0A
  | .pstate => 0x10
  | .pos => 0x11
  | .len => 0x12
  | .olen => 0x13
  | .fault => 0x14
  | .finfo => 0x15

theorem eq_addr_of_ofAddr : ∀ (r : BitVec 8) (reg : Reg), Reg.ofAddr r = some reg → r = reg.addr := by
  decide +kernel

theorem State.writeReg_desc_of_raw {x : BitVec 2550} (hx : s.payload = .raw x) (n : Nat) : s.writeReg .desc n = s := by
  rw [State.writeReg, hx]

theorem State.writeReg_desc_of_delegated {d : BitVec 16} {inner : Inner} (hx : s.payload = .delegated d inner) (n : Nat) :
    s.writeReg .desc n = { s with payload := .delegated (BitVec.ofNat 16 n) inner } := by
  rw [State.writeReg, hx]

theorem State.writeReg_payload_of_ne (h : reg ≠ .desc) (s : State) (n : Nat) :
    (s.writeReg reg n).payload = s.payload := by
  cases reg
  case desc => exact absurd rfl h
  all_goals rfl

/-- A register reads as before a write to another one; a write to DESC leaves UTAG. -/
theorem State.readReg_writeReg_of_ne (h : reg ≠ reg') (s : State) (n : Nat) :
    (s.writeReg reg n).readReg reg' = s.readReg reg' := by
  cases reg
  case desc =>
    cases hx : s.payload with
    | raw x => rw [State.writeReg_desc_of_raw hx]
    | delegated d inner =>
      rw [State.writeReg_desc_of_delegated hx]
      cases reg'
      case desc => exact absurd rfl h
      case utag => rw [readReg_utag_of_delegated hx, readReg_utag_of_delegated rfl]
      all_goals rfl
  all_goals cases reg' <;> simp [State.writeReg, State.readReg, State.utag] at h ⊢

/-- The registers WRREG does not name read as before. -/
theorem Writes.readReg_of_ne_addr (h : Writes s (.wrreg r v) u) (hne : r ≠ reg'.addr) :
    u.readReg reg' = s.readReg reg' := by
  cases h with
  | nothing => rfl
  | register hr =>
    refine State.readReg_writeReg_of_ne (fun heq => ?_) s _
    exact hne (heq ▸ eq_addr_of_ofAddr r _ hr)

/-- WRREG leaves the payload, or replaces DESC alone (rule R183). -/
theorem Writes.payload_of_wrreg (h : Writes s (.wrreg r v) u) :
    u.payload = s.payload ∨
    r = 0x0A ∧ ∃ d d' inner, s.payload = .delegated d inner ∧ u.payload = .delegated d' inner := by
  cases h with
  | nothing => exact .inl rfl
  | @register _ _ reg hr =>
    by_cases hd : reg = .desc
    · subst hd
      exact (s.writeReg_payload .desc _).imp_right fun hdesc => ⟨eq_addr_of_ofAddr r .desc hr, hdesc⟩
    · exact .inl (State.writeReg_payload_of_ne hd s _)

/-- The cursor and the output are no registers WRREG writes. -/
theorem Writes.cursor_and_output_of_wrreg (h : Writes s (.wrreg r v) u) :
    u.len = s.len ∧ u.pos = s.pos ∧ u.olen = s.olen ∧ u.out = s.out := by
  cases h with
  | nothing => exact ⟨rfl, rfl, rfl, rfl⟩
  | register hr => simp

/-- Settles O57: each register field from the register it is read by, the payload by its kind. -/
theorem wrregFrame : Obligations.WrregFrame := by
  intro r v s t he
  obtain ⟨-, hbuf, hparams, hhost, hresets⟩ := noCommandWritesBuf _ s t he
  obtain ⟨u, k, n, a, hw, rfl⟩ := exec_writes he
  have hkept : ∀ reg : Reg, r ≠ reg.addr → u.readReg reg = s.readReg reg := fun _ => hw.readReg_of_ne_addr
  obtain ⟨hlen, hpos, holen, hout⟩ := hw.cursor_and_output_of_wrreg
  have hpayload := hw.payload_of_wrreg
  refine ⟨fun h => BitVec.eq_of_toNat_eq (hkept .c h), fun h => BitVec.eq_of_toNat_eq (hkept .line h),
    fun h => BitVec.eq_of_toNat_eq (hkept .hoff h), fun h => BitVec.eq_of_toNat_eq (hkept .s h),
    fun h => BitVec.eq_of_toNat_eq (hkept .stream h), fun h => BitVec.eq_of_toNat_eq (hkept .did h),
    fun h => BitVec.eq_of_toNat_eq (hkept .sdid h), fun h => BitVec.eq_of_toNat_eq (hkept .wc h),
    fun h => BitVec.eq_of_toNat_eq (hkept .cs h), fun h => ?_, fun x hx => ?_, fun d inner hx => ?_,
    hw.pstate nofun nofun nofun, hlen, hpos, holen, hparams, hhost, hresets, hbuf,
    fun x => congrArg (BitMem.get? · x) hout⟩
  · exact hpayload.resolve_right fun hdesc => h hdesc.1
  · obtain hsame | ⟨-, d, d', inner, hs, -⟩ := hpayload
    · exact hsame.trans hx
    · cases hx.symm.trans hs
  · obtain hsame | ⟨-, e, e', inner', hs, hu⟩ := hpayload
    · exact ⟨d, hsame.trans hx⟩
    · cases hx.symm.trans hs
      exact ⟨e', hu⟩

/-! ### A digit write and the reset (rules R185, R186) -/

/-- Settles O59: WRU writes nothing, or a raw payload in place of a raw payload. -/
theorem wruFrame : Obligations.WruFrame := by
  intro k d s t he
  obtain ⟨-, hbuf, -⟩ := noCommandWritesBuf _ s t he
  obtain ⟨hutag, -⟩ := payloadKindChangesOnlyByDecodeOrReset _ s t he nofun nofun
  obtain ⟨u, c, n, a, hw, rfl⟩ := exec_writes he
  cases hw with
  | nothing => exact ⟨rfl, fun _ _ _ => rfl, hutag, hbuf, fun _ => rfl⟩
  | digit hx =>
    refine ⟨rfl, fun d inner hdel => ?_, hutag, hbuf, fun _ => rfl⟩
    cases hx.symm.trans hdel

/-- Settles O15: RST completes in the state after the reset, in the Faulted condition too. -/
theorem rstCompletes : Obligations.RstCompletes := exec_rst

end Sys2Proof.Machine
end

section
/-! PROOFS. The software side (spec/46_views_and_lookup.md): the description lookup, one equation per kind of entry. -/

namespace Sys2Proof.Machine

variable {t : DescTable} {did : Byte}

/-! ### The description lookup, by what the table has for the Data ID (rule R202) -/

theorem packetInfo_of_lookup_eq_none (h : t.lookup did = none) (sdid : Byte) : packetInfo t did sdid = "" := by
  simp [packetInfo, h]

theorem packetInfo_of_lookup_eq_description {text : String} (h : t.lookup did = some (.description text)) (sdid : Byte) :
    packetInfo t did sdid = text := by
  simp [packetInfo, h]

theorem packetInfo_of_lookup_eq_bySdid {m : List (Byte × String)} (h : t.lookup did = some (.bySdid m)) (sdid : Byte) :
    packetInfo t did sdid = (m.lookup sdid).getD "" := by
  simp [packetInfo, h]

/-- Settles O60: the three kinds of entry, and for each of the source's cases (R203) the kind its Data ID has. -/
theorem descriptionLookup : Obligations.DescriptionLookup := by
  refine ⟨fun t did sdid => ⟨fun h => packetInfo_of_lookup_eq_none h sdid,
    fun _ h => packetInfo_of_lookup_eq_description h sdid, fun _ h => packetInfo_of_lookup_eq_bySdid h sdid⟩, ?sourceCases⟩
  case sourceCases =>
    intro t
    have hmap : t.lookup 0x41 = some (.bySdid [(0x07, "SCTE-104")]) := rfl
    have htext : t.lookup 0x60 = some (.description "Ancillary Time Code") := rfl
    have hnone : t.lookup 0x99 = none := rfl
    exact ⟨packetInfo_of_lookup_eq_bySdid hmap 0x07, packetInfo_of_lookup_eq_bySdid hmap 0x99,
      packetInfo_of_lookup_eq_description htext, packetInfo_of_lookup_eq_none hnone 0x00⟩

end Sys2Proof.Machine
end

section
/-! PROOFS. The fault rules (spec/60_exceptions.md): what raising a fault writes, what the Faulted condition turns away, and
the idle step. -/

namespace Sys2Proof.Machine

variable {s t : State} {i : Instr}

/-! ### Raising a fault (rule R230) -/

/-- No command completes into the Faulted condition: a body leaves FAULT, or it is RST's. -/
theorem instrBody_fault_zero {u : State} {v : Nat} (hb : instrBody i s = .ok (u, v)) (h0 : s.fault = 0) : u.fault = 0 := by
  obtain ⟨-, rfl⟩ | ⟨hfault, -⟩ := body_fault hb
  · rfl
  · exact hfault.trans h0

/-- A command that leaves FAULT nonzero where none was recorded has raised one of R220's causes. -/
theorem exec_raised (he : exec i s = .next t) (h0 : s.fault = 0) (hf : t.fault ≠ 0) :
    ∃ r : Raised, t = s.faulted r.cause.code r.info := by
  obtain ⟨u, v, hb, rfl, -⟩ | ⟨r, -, rfl, -⟩ | ⟨hne, -, -⟩ := exec_cases he
  · exact absurd (instrBody_fault_zero hb h0) hf
  · exact ⟨r, rfl⟩
  · exact absurd h0 hne

/-- Settles O9: the command raised a fault, and the causes' codes are at most 8. -/
theorem faultingCommandWritesOnlyFaultAndInfo : Obligations.FaultingCommandWritesOnlyFaultAndInfo := by
  intro i s t he h0 hf
  obtain ⟨r, rfl⟩ := exec_raised he h0 hf
  exact ⟨rfl, r.cause.code_le⟩

/-! ### The Faulted condition (rule R231) -/

theorem exec_turned_away (hf : s.fault ≠ 0) (hr : runsFaulted i = false) : exec i s = .next s.turnAway := by
  rw [exec_eq, if_neg]
  rintro (h0 | hruns)
  · exact hf h0
  · exact Bool.false_ne_true (hr.symm.trans hruns)

/-- The Faulted condition is tested before a word's legality (rule R237). -/
theorem runWord_turned_away {w : CmdWord} {why : Reject} (h : decode w = .error why) (hf : s.fault ≠ 0) :
    runWord w s = .next s.turnAway := by
  rw [runWord, h]
  exact command_of_fault_ne hf _

/-- RST and a read of a status register are the only commands that run in the Faulted condition. -/
theorem runsFaulted_eq_false (hrst : i ≠ .rst)
    (hreg : ∀ r : BitVec 8, i = .rdreg r → ¬ (0x10 ≤ r.toNat ∧ r.toNat ≤ 0x15)) : runsFaulted i = false := by
  refine Bool.eq_false_iff.mpr fun hruns => ?_
  obtain rfl | ⟨r, rfl, hstatus⟩ := runsFaulted_cases hruns
  · exact hrst rfl
  · exact hreg r rfl (by simpa [isStatusAddr] using hstatus)

/-- Settles O10: the commands, then the words that fit no row. -/
theorem faultedFramerTurnsCommandsAway : Obligations.FaultedFramerTurnsCommandsAway := by
  refine ⟨fun i s hf hrst hreg => exec_turned_away hf (runsFaulted_eq_false hrst hreg), fun s w rest hs hf hno => ?_⟩
  obtain ⟨why, herr⟩ := decode_error_of_no_fit hno
  rw [step_of_host_cons hs]
  exact runWord_turned_away (s := { s with host := rest }) herr hf

/-! ### The idle step (rule R235) -/

/-- Settles O7: with no action pending the step is the idle one. -/
theorem idleFramerDoesNothing : Obligations.IdleFramerDoesNothing := by
  intro s h
  rw [step, h]

end Sys2Proof.Machine
end
